-- ==== Sys2Proof/Word.lean ====
section
/-! DEFINITION. The one word of the core: a byte. Registers, memory cells, operand bytes, opcodes and FL are
8 bits, unsigned (spec R8, R10). -/

namespace Sys2Proof

/-- An 8-bit value; bit 0 is the least significant (R7, R10). -/
abbrev Byte := BitVec 8

end Sys2Proof
end

