-- ==== Sys2Proof/Syntax.lean ====
section
/-! DEFINITION. The syntax: register names, the fifteen mnemonics, the five ALU operations, the instruction type
(one constructor per row of spec/opcode_table.json, in its order), and why a decoder refuses bytes. -/

namespace Sys2Proof

/-- The eight registers; R7 is the stack pointer (R20). -/
inductive Reg where
  | r0 | r1 | r2 | r3 | r4 | r5 | r6 | r7
deriving DecidableEq, Repr

/-- The mnemonics of the canonical table, in its order (R97). -/
inductive Mnemonic where
  | ldi | prn | hlt | mul | push | pop | call | ret | add | cmp | jmp | jne | jeq | and | or
deriving DecidableEq, Repr

/-- The ALU's operation select: a closed five-value type, so that UnsupportedALUOp cannot be constructed
(R140, R147). -/
inductive AluOp where
  | add | mul | and | or | cmp
deriving DecidableEq, Repr

/-- An instruction with its operand bytes as they stand in memory. A register operand is kept as the WHOLE byte:
a byte above 7 is an instruction that raises OutOfBounds when the register is accessed, and a JEQ or JNE that is not
taken never accesses it (R94, R182, R183; log 6). -/
inductive Instr where
  /-- LDI reg, immediate (R160). -/
  | ldi (a imm : Byte)
  /-- PRN reg (R161). -/
  | prn (a : Byte)
  /-- HLT (R200). -/
  | hlt
  /-- MUL regA, regB (R142). -/
  | mul (a b : Byte)
  /-- PUSH reg (R171). -/
  | push (a : Byte)
  /-- POP reg (R172). -/
  | pop (a : Byte)
  /-- CALL reg (R184). -/
  | call (a : Byte)
  /-- RET (R185). -/
  | ret
  /-- ADD regA, regB (R141). -/
  | add (a b : Byte)
  /-- CMP regA, regB (R145). -/
  | cmp (a b : Byte)
  /-- JMP reg (R181). -/
  | jmp (a : Byte)
  /-- JNE reg (R183). -/
  | jne (a : Byte)
  /-- JEQ reg (R182). -/
  | jeq (a : Byte)
  /-- AND regA, regB (R143). -/
  | and (a b : Byte)
  /-- OR regA, regB (R144). -/
  | or (a b : Byte)
deriving DecidableEq, Repr

/-- Why a list of bytes does not begin with an instruction. -/
inductive DecodeReject where
  /-- There is no byte at all: nothing to fetch (R121). -/
  | noOpcode
  /-- The opcode is none of the fifteen (R99, R122). -/
  | unknownOpcode (opcode : Byte)
  /-- The opcode is known and operand byte `k` (1 for a, 2 for b) is not there (R123). -/
  | missingOperand (k : Nat)
deriving DecidableEq, Repr

/-- What decoding answers: the instruction and the bytes after it, or the reason for refusing. -/
abbrev DecodeResult := Except DecodeReject (Instr × List Byte)

end Sys2Proof
end

