-- ==== Sys2Proof/WellFormed.lean ====
section
/-! DEFINITION. Which instructions are well formed: every operand byte that is a register index names one of the
eight registers (R21, R94). LDI's immediate may be any byte (R95). An ill-formed instruction still decodes and still
has a meaning: it raises OutOfBounds(RegIndex) when it accesses the register (R94, R212). -/

namespace Sys2Proof

/-- The operand byte is a register index in range, 0 to 7 (R21). -/
def regByteOk (b : Byte) : Bool := decide (b.toNat ≤ 7)

/-- Every register operand of the instruction is in range (R94; R93 says which operands are registers). -/
def Instr.wf : Instr → Bool
  | .ldi a _ => regByteOk a
  | .prn a => regByteOk a
  | .hlt => true
  | .mul a b => regByteOk a && regByteOk b
  | .push a => regByteOk a
  | .pop a => regByteOk a
  | .call a => regByteOk a
  | .ret => true
  | .add a b => regByteOk a && regByteOk b
  | .cmp a b => regByteOk a && regByteOk b
  | .jmp a => regByteOk a
  | .jne a => regByteOk a
  | .jeq a => regByteOk a
  | .and a b => regByteOk a && regByteOk b
  | .or a b => regByteOk a && regByteOk b

end Sys2Proof
end

