-- ==== Sys2Proof/Decode.lean ====
section
/-! DEFINITION. Decoding and encoding (spec/30_encoding.md). The decoder is total on any list of bytes and refuses by
name; the encoder is written from the same table. -/

namespace Sys2Proof

/-- The opcode table, "canonical, 15 entries", in the source's order (R97). -/
def opcodeTable : List (Byte × Mnemonic) :=
  [(0x82#8, .ldi), (0x47#8, .prn), (0x01#8, .hlt), (0xA2#8, .mul), (0x45#8, .push),
   (0x46#8, .pop), (0x50#8, .call), (0x11#8, .ret), (0xA0#8, .add), (0xA7#8, .cmp),
   (0x54#8, .jmp), (0x56#8, .jne), (0x55#8, .jeq), (0xA8#8, .and), (0xAA#8, .or)]

/-- Exact-match lookup of the whole opcode byte; no sub-field is decoded (R96, R98). -/
def lookupOpcode (op : Byte) : List (Byte × Mnemonic) → Option Mnemonic
  | [] => none
  | (v, m) :: rows => if op = v then some m else lookupOpcode op rows

/-- The mnemonic of an opcode byte, if it is one of the fifteen (R96, R97). -/
def mnemonicOf? (op : Byte) : Option Mnemonic := lookupOpcode op opcodeTable

/-- `len = (opcode >> 6) + 1` (R91). -/
def opcodeLength (op : Byte) : Nat := (op >>> 6).toNat + 1

/-- Format Z: no operand byte (R92). -/
def decodeZ (i : Instr) (rest : List Byte) : DecodeResult := .ok (i, rest)

/-- Format R: one operand byte (R92, R123). -/
def decodeR (i : Byte → Instr) : List Byte → DecodeResult
  | [] => .error (.missingOperand 1)
  | a :: rest => .ok (i a, rest)

/-- Formats RR and RI: two operand bytes, a then b (R92, R123). -/
def decodeRR (i : Byte → Byte → Instr) : List Byte → DecodeResult
  | [] => .error (.missingOperand 1)
  | [_] => .error (.missingOperand 2)
  | a :: b :: rest => .ok (i a b, rest)

/-- The operand bytes after an opcode whose mnemonic is known, by the format of the mnemonic (R92, R93). -/
def decodeOperands : Mnemonic → List Byte → DecodeResult
  | .ldi => decodeRR .ldi
  | .prn => decodeR .prn
  | .hlt => decodeZ .hlt
  | .mul => decodeRR .mul
  | .push => decodeR .push
  | .pop => decodeR .pop
  | .call => decodeR .call
  | .ret => decodeZ .ret
  | .add => decodeRR .add
  | .cmp => decodeRR .cmp
  | .jmp => decodeR .jmp
  | .jne => decodeR .jne
  | .jeq => decodeR .jeq
  | .and => decodeRR .and
  | .or => decodeRR .or

/-- Decoding: the opcode is looked up first, and only for a known opcode are operand bytes taken (R101, R122). -/
def decode : List Byte → DecodeResult
  | [] => .error .noOpcode
  | op :: rest =>
    match mnemonicOf? op with
    | none => .error (.unknownOpcode op)
    | some m => decodeOperands m rest

/-- The opcode byte of a mnemonic: the table of R97 read the other way. -/
def opcodeOf : Mnemonic → Byte
  | .ldi => 0x82#8
  | .prn => 0x47#8
  | .hlt => 0x01#8
  | .mul => 0xA2#8
  | .push => 0x45#8
  | .pop => 0x46#8
  | .call => 0x50#8
  | .ret => 0x11#8
  | .add => 0xA0#8
  | .cmp => 0xA7#8
  | .jmp => 0x54#8
  | .jne => 0x56#8
  | .jeq => 0x55#8
  | .and => 0xA8#8
  | .or => 0xAA#8

/-- The length of an instruction with this mnemonic, from its opcode's bits 7:6 (R91, R125). -/
def lengthOf (m : Mnemonic) : Nat := opcodeLength (opcodeOf m)

/-- The mnemonic of an instruction: exactly one (R105). -/
def Instr.mnemonic : Instr → Mnemonic
  | .ldi _ _ => .ldi
  | .prn _ => .prn
  | .hlt => .hlt
  | .mul _ _ => .mul
  | .push _ => .push
  | .pop _ => .pop
  | .call _ => .call
  | .ret => .ret
  | .add _ _ => .add
  | .cmp _ _ => .cmp
  | .jmp _ => .jmp
  | .jne _ => .jne
  | .jeq _ => .jeq
  | .and _ _ => .and
  | .or _ _ => .or

/-- The operand bytes of an instruction in ascending address order (R63, R92). -/
def Instr.operandBytes : Instr → List Byte
  | .ldi a imm => [a, imm]
  | .prn a => [a]
  | .hlt => []
  | .mul a b => [a, b]
  | .push a => [a]
  | .pop a => [a]
  | .call a => [a]
  | .ret => []
  | .add a b => [a, b]
  | .cmp a b => [a, b]
  | .jmp a => [a]
  | .jne a => [a]
  | .jeq a => [a]
  | .and a b => [a, b]
  | .or a b => [a, b]

/-- The length of an instruction in bytes, opcode included (R91). -/
def Instr.length (i : Instr) : Nat := lengthOf i.mnemonic

/-- The encoder: the opcode, then the operand bytes (R90, R97). -/
def encode (i : Instr) : List Byte := opcodeOf i.mnemonic :: i.operandBytes

/-- The first three bytes of the number `w` cut to `nbits` bits, bits 7:0 first: the longest instruction has three
bytes, and the one at bits 7:0 stands at the lowest address (R63, R90). -/
def wordBytes (nbits w : Nat) : List Byte :=
  let v := w % 2 ^ nbits
  [BitVec.ofNat 8 v, BitVec.ofNat 8 (v / 256), BitVec.ofNat 8 (v / 65536)]

/-- What the decoder reads from an instruction given as one number (bit 0 the least significant bit of the opcode
byte); none where it refuses. -/
def decodeTableWord (nbits w : Nat) : Option Instr :=
  match decode (wordBytes nbits w) with
  | .ok (i, _) => some i
  | .error _ => none

end Sys2Proof
end

