-- ==== Sys2Proof/Config.lean ====
section
/-! DEFINITION. The implementation parameters of spec R5. The one open parameter, IMAGE, is an argument of the load
(Machine/Loader.lean). The spec leaves no value free, so nothing here is opaque. -/

namespace Sys2Proof.Config

/-- MEM_SIZE: addresses 0 to 255 (R5, R60). -/
abbrev memSize : Nat := 256

/-- What an address that holds no listed byte reads as: memory is zero-initialised (R5, R50, R60). -/
abbrev unlistedByte : Byte := 0x00#8

/-- GPR_RESET, R0 to R6 (R5, R50). DESIGN CHOICE, the spec's own decision D8: the source states no value; unsafe
(log 4). -/
abbrev gprReset : Byte := 0x00#8

/-- SP_RESET, R7 (R5, R50, C2). -/
abbrev spReset : Byte := 0xF3#8

/-- FL_RESET (R5, R50). -/
abbrev flReset : Byte := 0x00#8

/-- PC_RESET (R5, R50, R252). -/
abbrev pcReset : Nat := 0

end Sys2Proof.Config
end

