-- ==== Sys2Proof/Machine/State.lean ====
section
/-! DEFINITION. The whole state of the core (R37 of spec/10_state.md) as plain data, the reasons a step can stop, and
the state after reset (R50). -/

namespace Sys2Proof.Machine

/-- The kinds of OutOfBounds (R212). -/
inductive OobKind where
  /-- The opcode fetch lies above address 255 (R121). -/
  | fetch
  /-- An operand byte lies above address 255 (R123). -/
  | operand
  /-- An operand byte used as a register index is above 7 (R21). -/
  | regIndex
  /-- The stack-pointer controller would leave 0 to 255 (R24). -/
  | stackPointer
  /-- CALL's return address does not fit a byte (R184). -/
  | returnAddress
deriving DecidableEq, Repr

/-- Cause and info of a fatal error the core can raise (R211, R212). UnsupportedALUOp cannot be raised and has no
constructor (R147, R213; log 11); LoadError is the loader's (R214). -/
inductive Cause where
  | decodeError (opcode : Byte)
  | outOfBounds (kind : OobKind) (value : Int)
deriving DecidableEq, Repr

/-- The four error names of the source (R210). -/
inductive ErrorName where
  | loadError | decodeError | outOfBounds | unsupportedALUOp
deriving DecidableEq, Repr

/-- Why a load is refused; every one is a LoadError, and there is no run (R214, R254; log 10). -/
inductive LoadRefusal where
  /-- A non-blank line that is no binary literal (R106). -/
  | malformedLiteral
  /-- A value above 255 (D15). -/
  | literalTooWide
  /-- More than 256 bytes (D15). -/
  | imageTooLong
deriving DecidableEq, Repr

/-- The run state (R30). -/
inductive Run where
  | running
  | halted
  | faulted (cause : Cause)
deriving DecidableEq, Repr

/-- The register file: eight 8-bit registers, R7 the stack pointer (R20). -/
structure Regs where
  r0 : Byte
  r1 : Byte
  r2 : Byte
  r3 : Byte
  r4 : Byte
  r5 : Byte
  r6 : Byte
  r7 : Byte
deriving DecidableEq, Repr

/-- Memory: the cells that differ from the zero-initialised contents, addresses strictly rising below 256 (R60).
The canonical form is `Memory.wf` (Machine/Ops.lean; log 7). -/
abbrev Memory := List Host.Cell

/-- The whole state of the core: the tuple of R37. -/
structure State where
  /-- The 256-byte memory (R33, R60). -/
  mem : Memory
  /-- The register file (R20). -/
  x : Regs
  /-- The flags register: bit 0 Equal, bit 1 GreaterThan, bit 2 LessThan (R25). -/
  fl : Byte
  /-- The program counter, a number 0 to 256 (R27; log 5). -/
  pc : Nat
  /-- The run state (R30). -/
  run : Run
  /-- The output log, oldest value first (R36). -/
  out : List Byte
deriving DecidableEq, Repr

/-- Why a step cannot be taken. Every fatal error of the spec is a NEXT state (`run` becomes Faulted, R216); what
stops here is only the request for a step of a core that is not Running, for which "`Step` is not defined"
(R30, R128; log 2). -/
inductive Fault where
  /-- Raised by `step` when `run` is Halted: the run ended cleanly (R128, R259). Safe: the model stops. -/
  | stoppedHalted
  /-- Raised by `step` when `run` is Faulted: the run was aborted (R128, R216). Safe: the model stops. -/
  | stoppedFaulted (cause : Cause)
deriving DecidableEq, Repr

/-- Why an instruction has no meaning in the model. -/
inductive Refusal where
  /-- Raised by `exec` for an instruction the model gives no meaning; no arm of `exec` does. Safe: the model stops. -/
  | notModelled (mnemonic : String)
deriving DecidableEq, Repr

/-- The state after reset with the empty image (R50, R250, R254: "An empty image is legal: memory is all zero").
A program is placed by the load, Machine/Loader.lean (log 3). -/
def State.reset : State where
  mem := []
  x := { r0 := Config.gprReset, r1 := Config.gprReset, r2 := Config.gprReset, r3 := Config.gprReset,
         r4 := Config.gprReset, r5 := Config.gprReset, r6 := Config.gprReset, r7 := Config.spReset }
  fl := Config.flReset
  pc := Config.pcReset
  run := .running
  out := []

end Sys2Proof.Machine
end

