-- ==== Sys2Proof/Machine/Ops.lean ====
section
/-! DEFINITION. The named operations over memory, registers, the program counter and the output log; raising a fatal
error (R216) as one shared operation; fetching and decoding (R120 to R123); the status interface's numbers (R215). -/

namespace Sys2Proof.Machine

/-- What every meaning answers. -/
abbrev Result := Host.Outcome State Fault Refusal

/-! ### Memory (spec/20_memory.md) -/

/-- The canonical form: addresses strictly rising, all below 256, and no cell equal to what an unlisted address reads
as. -/
abbrev Memory.wf (m : Memory) : Prop :=
  m.Pairwise (fun c d => c.1 < d.1) ∧ ∀ c ∈ m, c.1 < Config.memSize ∧ c.2 ≠ Config.unlistedByte

/-- The byte at an address, whatever the address: the listed byte, or the zero-initialised contents (R60). -/
def Memory.read : Memory → Nat → Byte
  | [], _ => Config.unlistedByte
  | (a', v) :: m, a => if a = a' then v else Memory.read m a

/-- The memory with one byte replaced, in canonical form: a byte equal to the unlisted contents is not listed. -/
def Memory.write : Memory → Nat → Byte → Memory
  | [], a, v => if v = Config.unlistedByte then [] else [(a, v)]
  | (a', v') :: m, a, v =>
    if a < a' then
      if v = Config.unlistedByte then (a', v') :: m else (a, v) :: (a', v') :: m
    else if a = a' then
      if v = Config.unlistedByte then m else (a, v) :: m
    else (a', v') :: Memory.write m a v

/-- `MemRead(a, 1)`: the byte, or nothing above address 255 (R61, R41). -/
def Memory.read? (m : Memory) (a : Nat) : Option Byte :=
  if a < Config.memSize then some (m.read a) else none

/-- `MemWrite(a, 1, v)`: the new memory, or nothing above address 255 (R61, R41). -/
def Memory.write? (m : Memory) (a : Nat) (v : Byte) : Option Memory :=
  if a < Config.memSize then some (m.write a v) else none

/-- Bytes stored at ascending addresses from `a` up; what would lie above address 255 is not stored. Used by the load
and by `withFetchWord`, never by an instruction. -/
def Memory.writeBytes (m : Memory) (a : Nat) : List Byte → Memory
  | [] => m
  | v :: vs => Memory.writeBytes ((m.write? a v).getD m) (a + 1) vs

/-! ### Registers (R20, R21) -/

/-- `x[r]`. -/
def Regs.get (x : Regs) : Reg → Byte
  | .r0 => x.r0
  | .r1 => x.r1
  | .r2 => x.r2
  | .r3 => x.r3
  | .r4 => x.r4
  | .r5 => x.r5
  | .r6 => x.r6
  | .r7 => x.r7

/-- `x[r] <- v`: all 8 bits are replaced. -/
def Regs.set (x : Regs) (r : Reg) (v : Byte) : Regs :=
  match r with
  | .r0 => { x with r0 := v }
  | .r1 => { x with r1 := v }
  | .r2 => { x with r2 := v }
  | .r3 => { x with r3 := v }
  | .r4 => { x with r4 := v }
  | .r5 => { x with r5 := v }
  | .r6 => { x with r6 := v }
  | .r7 => { x with r7 := v }

/-- Register `r` of the state. -/
def State.getReg (s : State) (r : Reg) : Byte := s.x.get r

/-- The state with register `r` written. -/
def State.setReg (s : State) (r : Reg) (v : Byte) : State := { s with x := s.x.set r v }

/-- SP is register 7 of the file (R9, R20, C7). -/
abbrev spReg : Reg := .r7

/-! ### The other pieces of state -/

/-- Stack load: the address is a byte, so it is always in range (R61, R62). -/
def State.load (s : State) (a : Byte) : Byte := s.mem.read a.toNat

/-- Stack store: the address is a byte, so it is always in range (R61, R62). -/
def State.store (s : State) (a v : Byte) : State := { s with mem := s.mem.write a.toNat v }

/-- FL is written as a whole (R26). -/
def State.setFl (s : State) (v : Byte) : State := { s with fl := v }

/-- Default advance: `pc <- pc + len`, exact, no wrap (R29, R125). -/
def State.advance (s : State) (len : Nat) : State := { s with pc := s.pc + len }

/-- Redirect: `pc <- target`; a target is a byte (R126). -/
def State.jump (s : State) (target : Byte) : State := { s with pc := target.toNat }

/-- `Out(v)`: append to the output log (R9, R36). -/
def State.print (s : State) (v : Byte) : State := { s with out := s.out ++ [v] }

/-- `run <- Halted` (R127, R200). -/
def State.halt (s : State) : State := { s with run := .halted }

/-! ### Taking an exception (R216, R217), and the absence of a return (R219)

Every exception is fatal. Entry does exactly `run <- Faulted(F, info)`: nothing is saved, no vector is fetched, no mode
changes, and `mem`, `x`, `FL`, `pc` and `out` are as they were before the step. There is no return from it: only a
reset leaves Faulted. -/

/-- The state a raise leaves. -/
def State.raised (s : State) (c : Cause) : State := { s with run := .faulted c }

/-- `raise F(info)`: a next state with `run` Faulted and nothing else changed (R216, R217; log 1). -/
def raise (c : Cause) (s : State) : Result := .next (s.raised c)

/-- How an instruction ends: with its own next state, or with the fatal error of the first check that failed, taken in
the state BEFORE the instruction (R120, R217, R218). -/
def complete (s : State) : Except Cause State → Result
  | .ok t => .next t
  | .error c => raise c s

/-! ### The stack-pointer controller (R24) -/

/-- `SpDec`: the decremented SP, computed as an integer and never wrapped. -/
def spDec (s : State) : Except Cause Byte :=
  let v : Int := (s.getReg spReg).toNat - 1
  if v < 0 then .error (.outOfBounds .stackPointer v) else .ok (BitVec.ofInt 8 v)

/-- `SpInc`: the incremented SP, computed as an integer and never wrapped. -/
def spInc (s : State) : Except Cause Byte :=
  let v : Int := (s.getReg spReg).toNat + 1
  if v > 255 then .error (.outOfBounds .stackPointer v) else .ok (BitVec.ofInt 8 v)

/-! ### Fetch, decode, operand fetch (R120 to R123) -/

/-- The bytes at `pc`, `pc + 1`, `pc + 2` that exist: addresses are exact and stop at 255 (R29, R61). Reading has no
side effect (R65), so reading more than the instruction's own bytes changes nothing. -/
def fetchWindow (s : State) : List Byte :=
  [s.pc, s.pc + 1, s.pc + 2].filterMap s.mem.read?

/-- The fatal error for bytes that are no instruction: the fetch itself, the opcode, or the first operand address above
255 (R121, R122, R123, R218). -/
def rejectCause (pc : Nat) : DecodeReject → Cause
  | .noOpcode => .outOfBounds .fetch pc
  | .unknownOpcode op => .decodeError op
  | .missingOperand k => .outOfBounds .operand ((pc + k : Nat) : Int)

/-- Parts 1 to 3 of the step: the instruction at `pc`, or the fatal error (R120). -/
def fetchInstr (s : State) : Except Cause Instr :=
  match decode (fetchWindow s) with
  | .ok (i, _) => .ok i
  | .error e => .error (rejectCause s.pc e)

/-! ### The status interface's numbers (R43, R215) -/

/-- The cause codes: 1 LoadError, 2 DecodeError, 3 OutOfBounds, 4 UnsupportedALUOp. -/
def ErrorName.code : ErrorName → Nat
  | .loadError => 1
  | .decodeError => 2
  | .outOfBounds => 3
  | .unsupportedALUOp => 4

/-- The codes of the OutOfBounds kinds. -/
def OobKind.code : OobKind → Nat
  | .fetch => 1
  | .operand => 2
  | .regIndex => 3
  | .stackPointer => 4
  | .returnAddress => 5

/-- The source's name for a cause. -/
def Cause.name : Cause → ErrorName
  | .decodeError _ => .decodeError
  | .outOfBounds _ _ => .outOfBounds

/-- The cause code shown on the status interface: 0 when there is no fault. -/
def Run.causeCode : Run → Nat
  | .running => 0
  | .halted => 0
  | .faulted c => c.name.code

/-- The OutOfBounds kind shown on the status interface (R215). DESIGN CHOICE, safe: the spec numbers the kinds 1 to 5 and
gives no number for a run state that is no OutOfBounds (Running, Halted, a DecodeError); the model shows 0 (log 19). -/
def Run.kindCode : Run → Nat
  | .faulted (.outOfBounds k _) => k.code
  | .faulted (.decodeError _) => 0
  | .running => 0
  | .halted => 0

/-- The value recorded with a fault and shown on the status interface (R211, R212); none when there is no fault, for which
the spec gives no value (log 19). -/
def Run.info : Run → Option Int
  | .faulted (.outOfBounds _ v) => some v
  | .faulted (.decodeError op) => some op.toNat
  | .running => none
  | .halted => none

end Sys2Proof.Machine
end

