-- ==== Sys2Proof/Machine/Flags.lean ====
section
/-! DEFINITION. The flags register (R25, R26) and the ALU's value functions (R140 to R146). -/

namespace Sys2Proof.Machine

/-- `trunc8(n) = n mod 256` (R8). -/
def trunc8 (n : Nat) : Byte := BitVec.ofNat 8 n

/-- FL with E alone set (R25, R145). -/
abbrev flEqual : Byte := 0x01#8
/-- FL with G alone set (R25, R145). -/
abbrev flGreater : Byte := 0x02#8
/-- FL with L alone set (R25, R145). -/
abbrev flLess : Byte := 0x04#8

/-- The E flag, FL bit 0: all that JEQ and JNE read (R26, R182, R183). -/
def flagE (fl : Byte) : Bool := fl.getLsbD 0

/-- CMP's result: unsigned, exactly one of E, G, L, bits 7:3 zero; G when the first operand is the greater
(R145, D6, D7). -/
def compareFlags (a b : Byte) : Byte :=
  if a = b then flEqual
  else if b.toNat < a.toNat then flGreater
  else flLess

/-- What the ALU produces: a result for the destination register, or a value for FL (R140). -/
inductive AluOut where
  | value (y : Byte)
  | flags (fl : Byte)
deriving DecidableEq, Repr

/-- The ALU: a pure function of the operation and the two inputs; sums and products are exact and then reduced by
`trunc8` (R140 to R146). -/
def alu : AluOp → Byte → Byte → AluOut
  | .add, a, b => .value (trunc8 (a.toNat + b.toNat))
  | .mul, a, b => .value (trunc8 (a.toNat * b.toNat))
  | .and, a, b => .value (a &&& b)
  | .or, a, b => .value (a ||| b)
  | .cmp, a, b => .flags (compareFlags a b)

end Sys2Proof.Machine
end

