-- ==== Sys2Proof/Machine/Operands.lean ====
section
/-! DEFINITION. Operand forms: the register index check (R21, R94) and the pair of register operands of format RR
(R148). The immediate of LDI is the byte itself (R95). -/

namespace Sys2Proof.Machine

/-- The register a byte 0 to 7 names; a larger byte names none, and no bit of it is masked off (R21, R94). -/
def regOfByte? (b : Byte) : Option Reg :=
  match b.toNat with
  | 0 => some .r0
  | 1 => some .r1
  | 2 => some .r2
  | 3 => some .r3
  | 4 => some .r4
  | 5 => some .r5
  | 6 => some .r6
  | 7 => some .r7
  | _ => none

/-- The byte that names a register: its index (R20). -/
def regByte : Reg → Byte
  | .r0 => 0#8
  | .r1 => 1#8
  | .r2 => 2#8
  | .r3 => 3#8
  | .r4 => 4#8
  | .r5 => 5#8
  | .r6 => 6#8
  | .r7 => 7#8

/-- `RegIdx(i)`: the register, or OutOfBounds(RegIndex, i) for an operand byte above 7 (R9, R21, R94). -/
def regIdx (b : Byte) : Except Cause Reg :=
  match regOfByte? b with
  | some r => .ok r
  | none => .error (.outOfBounds .regIndex (b.toNat : Int))

/-- `RegIdx(a); RegIdx(b)`, operand a first (R148, R218). -/
def regPair (a b : Byte) : Except Cause (Reg × Reg) := do
  let ra ← regIdx a
  let rb ← regIdx b
  return (ra, rb)

end Sys2Proof.Machine
end

