-- ==== Sys2Proof/Machine/Alu.lean ====
section
/-! DEFINITION. The ALU instructions ADD, MUL, AND, OR, CMP (spec/41_alu.md). -/

namespace Sys2Proof.Machine

/-- The write-back of the ALU's output: the destination register, or FL (R140, C11). -/
def writeBack (s : State) (dst : Reg) : AluOut → State
  | .value y => s.setReg dst y
  | .flags v => s.setFl v

/-- The common part of the five ALU instructions: both indices checked, both inputs read, the result written back, the
default advance (R148). -/
def aluInstr (op : AluOp) (len : Nat) (a b : Byte) (s : State) : Result :=
  complete s do
    let (ra, rb) ← regPair a b
    return (writeBack s ra (alu op (s.getReg ra) (s.getReg rb))).advance len

/-- ADD regA, regB (R141). -/
def execAdd (a b : Byte) (s : State) : Result := aluInstr .add (lengthOf .add) a b s

/-- MUL regA, regB (R142). -/
def execMul (a b : Byte) (s : State) : Result := aluInstr .mul (lengthOf .mul) a b s

/-- AND regA, regB (R143). -/
def execAnd (a b : Byte) (s : State) : Result := aluInstr .and (lengthOf .and) a b s

/-- OR regA, regB (R144). -/
def execOr (a b : Byte) (s : State) : Result := aluInstr .or (lengthOf .or) a b s

/-- CMP regA, regB (R145). -/
def execCmp (a b : Byte) (s : State) : Result := aluInstr .cmp (lengthOf .cmp) a b s

end Sys2Proof.Machine
end

