-- ==== Sys2Proof/Machine/Stack.lean ====
section
/-! DEFINITION. PUSH and POP (spec/43_stack.md). The statements are applied in the source's written order on the
current register values, which matters when the explicit operand is R7 (R170, D10). -/

namespace Sys2Proof.Machine

/-- Decrement SP to `sp` and store a byte there; the byte is read from the state AFTER the decrement (R170, R171). -/
def pushAt (s : State) (sp : Byte) (v : State → Byte) : State :=
  let t := s.setReg spReg sp
  t.store sp (v t)

/-- PUSH reg (R171). -/
def execPush (a : Byte) (s : State) : Result :=
  complete s do
    let ra ← regIdx a
    let sp ← spDec s
    return (pushAt s sp (fun t => t.getReg ra)).advance (lengthOf .push)

/-- POP reg: the register is written first and SP incremented after, so `POP R7` leaves the popped byte plus one
(R172, D10). -/
def execPop (a : Byte) (s : State) : Result :=
  complete s do
    let ra ← regIdx a
    let t := s.setReg ra (s.load (s.getReg spReg))
    let sp ← spInc t
    return (t.setReg spReg sp).advance (lengthOf .pop)

end Sys2Proof.Machine
end

