-- ==== Sys2Proof/Machine/Control.lean ====
section
/-! DEFINITION. JMP, JEQ, JNE, CALL, RET (spec/44_control_transfer.md). -/

namespace Sys2Proof.Machine

/-- JMP reg (R181). -/
def execJmp (a : Byte) (s : State) : Result :=
  complete s do
    let ra ← regIdx a
    return s.jump (s.getReg ra)

/-- The conditional jumps: the register index is checked only when the branch is taken (R182, R183, C13). -/
def branchIf (taken : Bool) (len : Nat) (a : Byte) (s : State) : Result :=
  complete s <|
    if taken then do
      let ra ← regIdx a
      return s.jump (s.getReg ra)
    else .ok (s.advance len)

/-- JEQ reg: taken when FL bit 0 is set (R182). -/
def execJeq (a : Byte) (s : State) : Result := branchIf (flagE s.fl) (lengthOf .jeq) a s

/-- JNE reg: taken when FL bit 0 is clear (R183). -/
def execJne (a : Byte) (s : State) : Result := branchIf (!flagE s.fl) (lengthOf .jne) a s

/-- CALL's return address `pc + len`, which must be a byte (R184, D4). -/
def returnAddress (pc len : Nat) : Except Cause Byte :=
  if pc + len > 255 then .error (.outOfBounds .returnAddress ((pc + len : Nat) : Int))
  else .ok (BitVec.ofNat 8 (pc + len))

/-- CALL reg: push the return address, then jump to the register as it is AFTER the decrement (R184, D10). -/
def execCall (a : Byte) (s : State) : Result :=
  complete s do
    let ra ← regIdx a
    let sp ← spDec s
    let ret ← returnAddress s.pc (lengthOf .call)
    let t := pushAt s sp (fun _ => ret)
    return t.jump (t.getReg ra)

/-- RET: jump to the popped byte; `len` is not added (R185). -/
def execRet (s : State) : Result :=
  complete s do
    let sp ← spInc s
    return (s.jump (s.load (s.getReg spReg))).setReg spReg sp

end Sys2Proof.Machine
end

