-- ==== Sys2Proof/Machine/DataMovement.lean ====
section
/-! DEFINITION. LDI and PRN (spec/42_data_movement.md). -/

namespace Sys2Proof.Machine

/-- LDI reg, immediate: the immediate is used as is (R160, R95). -/
def execLdi (a imm : Byte) (s : State) : Result :=
  complete s do
    let ra ← regIdx a
    return (s.setReg ra imm).advance (lengthOf .ldi)

/-- PRN reg: append the register's value to the output log (R161). -/
def execPrn (a : Byte) (s : State) : Result :=
  complete s do
    let ra ← regIdx a
    return (s.print (s.getReg ra)).advance (lengthOf .prn)

end Sys2Proof.Machine
end

