-- ==== Sys2Proof/Machine/System.lean ====
section
/-! DEFINITION. HLT (spec/45_system.md), the only instruction that changes the run state (R201). -/

namespace Sys2Proof.Machine

/-- HLT: `run <- Halted`; pc stays at the HLT (R200). -/
def execHlt (s : State) : Result := complete s (.ok s.halt)

end Sys2Proof.Machine
end

