-- ==== Sys2Proof/Machine/Step.lean ====
section
/-! DEFINITION. The step (R120): defined only when the core is Running (R128); fetch, decode and operand fetch, with
their fatal errors taken; then the instruction. -/

namespace Sys2Proof.Machine

/-- One step of the core. -/
def step (s : State) : Host.Outcome State Fault Refusal :=
  match s.run with
  | .halted => .fault .stoppedHalted
  | .faulted c => .fault (.stoppedFaulted c)
  | .running =>
    match fetchInstr s with
    | .error c => raise c s
    | .ok i => exec i s

/-- `s` with the instruction given as one number stored where `step` fetches next: three bytes at `pc`, `pc + 1`,
`pc + 2`, those of them that are addresses. It stands for the load of a program (log 3). -/
def State.withFetchWord (s : State) (nbits w : Nat) : State :=
  { s with mem := s.mem.writeBytes s.pc (wordBytes nbits w) }

end Sys2Proof.Machine
end

