-- ==== Sys2Proof/Machine/Loader.lean ====
section
/-! DEFINITION. Reset with a program image (R40, R250, R254) and the image's text form (R106). The load happens once,
before the first step; it is a function that gives the state a run starts from, not a step (log 3). -/

namespace Sys2Proof.Machine

/-- Every refusal of the load is CA's LoadError (R214). -/
def LoadRefusal.name : LoadRefusal → ErrorName
  | .malformedLiteral => .loadError
  | .literalTooWide => .loadError
  | .imageTooLong => .loadError

/-- Reset with IMAGE: at most 256 values, each at most 255, placed from address 0; all else as reset leaves it
(R40, R50, R254). Anything else is refused and there is no run (D15). -/
def loadImage (image : List Nat) : Except LoadRefusal State :=
  if Config.memSize < image.length then .error .imageTooLong
  else if image.any (fun n => decide (255 < n)) then .error .literalTooWide
  else .ok { State.reset with mem := Memory.writeBytes [] 0 (image.map (BitVec.ofNat 8)) }

/-- White space of the text form (log 9). -/
def isSpace (c : Char) : Bool := c = ' ' || c = '\t' || c = '\r' || c = '\n'

/-- Everything before the first `#` of a line (R106). -/
def stripComment (line : List Char) : List Char := line.takeWhile (fun c => c ≠ '#')

/-- A line without the white space around it (R106). -/
def trimSpace (line : List Char) : List Char :=
  ((line.dropWhile isSpace).reverse.dropWhile isSpace).reverse

/-- The value of a string of binary digits, most significant first, continuing from `acc`; none for any other
character (R106; log 9). -/
def parseBits (acc : Nat) : List Char → Option Nat
  | [] => some acc
  | c :: cs =>
    if c = '0' then parseBits (2 * acc) cs
    else if c = '1' then parseBits (2 * acc + 1) cs
    else none

/-- One line of the text form: nothing for a blank or comment-only line, else one value (R106). -/
def parseLine (line : List Char) : Except LoadRefusal (Option Nat) :=
  match trimSpace (stripComment line) with
  | [] => .ok none
  | c :: cs =>
    match parseBits 0 (c :: cs) with
    | some n => .ok (some n)
    | none => .error .malformedLiteral

/-- The values of the lines in order; a line that yields none does not advance the address (R106). -/
def parseImage : List (List Char) → Except LoadRefusal (List Nat)
  | [] => .ok []
  | line :: lines => do
    let v ← parseLine line
    let vs ← parseImage lines
    return v.toList ++ vs

/-- A text cut at its line feeds. -/
def splitLines : List Char → List (List Char)
  | [] => [[]]
  | c :: cs =>
    if c = '\n' then [] :: splitLines cs
    else
      match splitLines cs with
      | [] => [[c]]
      | line :: lines => (c :: line) :: lines

/-- Reset with the image a text gives (R106, R254). -/
def loadText (text : List Char) : Except LoadRefusal State := do
  let image ← parseImage (splitLines text)
  loadImage image

end Sys2Proof.Machine
end

