-- ==== Sys2Proof/Machine/Output.lean ====
section
/-! DEFINITION. The host side's rendering of the output log (R162, D9). Claims are stated on the values of `out`, not
on this text. And what the optional trace reads (R225). -/

namespace Sys2Proof.Machine

/-- The decimal digit of a number below ten. -/
def digitChar (n : Nat) : Char := Char.ofNat (48 + n)

/-- The shortest decimal numeral of a byte: no sign, no leading zeros (R162). -/
def decimal (v : Byte) : List Char :=
  let n := v.toNat
  if n < 10 then [digitChar n]
  else if n < 100 then [digitChar (n / 10), digitChar (n % 10)]
  else [digitChar (n / 100), digitChar (n / 10 % 10), digitChar (n % 10)]

/-- One decimal integer per line, each followed by one line feed (R162). -/
def renderOutput (out : List Byte) : List Char := out.flatMap (fun v => decimal v ++ ['\n'])

/-- What the trace facility reads of a state, per step: the program counter, the next three memory bytes (those that are
addresses; above 255 the source says nothing) and the eight registers. It writes no state (R225; log 18). -/
def traceRecord (s : State) : Nat × List Byte × List Byte :=
  (s.pc, fetchWindow s, [s.x.r0, s.x.r1, s.x.r2, s.x.r3, s.x.r4, s.x.r5, s.x.r6, s.x.r7])

end Sys2Proof.Machine
end

