-- ==== Sys2Proof/Safety.lean ====
section
/-! DEFINITION. The terms claims use: the invariant of the machine, what a clean end of a run is, what explains a
stop, and which fatal error each instruction raises. -/

namespace Sys2Proof.Machine

/-- The invariant every step keeps: memory is canonical (log 7), `pc` is 0 to 256 (R27), and FL is one of its four
reachable values (R26). -/
abbrev State.Inv (s : State) : Prop :=
  s.mem.wf ∧ s.pc ≤ 256 ∧ (s.fl = 0x00#8 ∨ s.fl = 0x01#8 ∨ s.fl = 0x02#8 ∨ s.fl = 0x04#8)

/-- A run ends cleanly in a Halted state and in no other (R259). -/
abbrev State.endedCleanly (s : State) : Prop := s.run = .halted

/-- A run that ends Faulted has gone wrong (R216, R259). -/
def State.wentWrong (s : State) : Bool :=
  match s.run with
  | .faulted _ => true
  | .running => false
  | .halted => false

/-- The instruction with opcode `op` looks up operand byte a in the register file, by its opcode byte: LDI, PRN, PUSH,
POP, CALL, JMP and the five ALU instructions always, JEQ and JNE only when taken (the RegIndex row of R212). -/
def looksUpA (fl op : Byte) : Bool :=
  decide (op ∈ [0x82#8, 0x47#8, 0x45#8, 0x46#8, 0x50#8, 0x54#8, 0xA0#8, 0xA2#8, 0xA7#8, 0xA8#8, 0xAA#8] ∨
    (op = 0x55#8 ∧ fl.getLsbD 0 = true) ∨ (op = 0x56#8 ∧ fl.getLsbD 0 = false))

/-- The instruction with opcode `op` looks up operand byte b: ADD, MUL, AND, OR, CMP (the RegIndex row of R212). LDI's
byte b is an immediate. -/
def looksUpB (op : Byte) : Bool := decide (op ∈ [0xA0#8, 0xA2#8, 0xA7#8, 0xA8#8, 0xAA#8])

/-- The recorded cause is the one the unchanged state calls for: the table of R212 with its values and its "raised by"
column, in the order of R218, read at the state the fault leaves, which is the state before the step (R217). The three
kinds an instruction raises itself come only once its operand bytes are there; operand a's index is looked at before
operand b's and before the stack pointer, the stack pointer before the return address. POP follows R172 (log 13). -/
def causeFits (s : State) : Cause → Bool :=
  let op := s.mem.read s.pc
  let a := s.mem.read (s.pc + 1)
  let b := s.mem.read (s.pc + 2)
  let popped := s.mem.read s.x.r7.toNat
  fun
  | .decodeError c => decide (s.pc ≤ 255 ∧ c = op ∧ mnemonicOf? op = none)
  | .outOfBounds .fetch v => decide (s.pc = 256 ∧ v = 256)
  | .outOfBounds .operand v =>
    decide (v = 256 ∧ mnemonicOf? op ≠ none ∧
      ((s.pc = 255 ∧ 2 ≤ opcodeLength op) ∨ (s.pc = 254 ∧ opcodeLength op = 3)))
  | .outOfBounds .regIndex v =>
    decide (s.pc + opcodeLength op ≤ 256 ∧ 8 ≤ v ∧ v ≤ 255 ∧
      ((v = a.toNat ∧ looksUpA s.fl op = true) ∨ (a.toNat ≤ 7 ∧ v = b.toNat ∧ looksUpB op = true)))
  | .outOfBounds .stackPointer v =>
    decide (s.pc + opcodeLength op ≤ 256 ∧
      ((v = -1 ∧ s.x.r7 = 0x00#8 ∧ (op = 0x45#8 ∨ op = 0x50#8) ∧ a.toNat ≤ 7) ∨
        (v = 256 ∧ s.x.r7 = 0xFF#8 ∧ op = 0x11#8) ∨
        (v = 256 ∧ s.x.r7 = 0xFF#8 ∧ op = 0x46#8 ∧ a.toNat ≤ 6) ∨
        (v = 256 ∧ popped = 0xFF#8 ∧ op = 0x46#8 ∧ a = 0x07#8)))
  | .outOfBounds .returnAddress v =>
    decide (v = 256 ∧ s.pc = 254 ∧ op = 0x50#8 ∧ a.toNat ≤ 7 ∧ s.x.r7 ≠ 0x00#8)

/-- A stopped state says why it stopped: Halted with `pc` at a HLT (R200), or Faulted with a cause that fits
(R212, R217). -/
def State.stopExplained (s : State) : Bool :=
  match s.run with
  | .running => true
  | .halted => decide (s.pc ≤ 255 ∧ s.mem.read s.pc = 0x01#8)
  | .faulted c => causeFits s c

/-- The RegIndex error of a register operand byte, if it is above 7 (R94). -/
def indexFault (b : Byte) : Option Cause :=
  if 7 < b.toNat then some (.outOfBounds .regIndex (b.toNat : Int)) else none

/-- The first fatal error of an instruction after operand fetch, or none: the table of R227 in the order of R218.
POP's row follows R172 (log 13). -/
def firstFault (s : State) : Instr → Option Cause
  | .ldi a _ => indexFault a
  | .prn a => indexFault a
  | .hlt => none
  | .mul a b => indexFault a <|> indexFault b
  | .push a => indexFault a <|>
      if s.x.r7 = 0x00#8 then some (.outOfBounds .stackPointer (-1)) else none
  | .pop a => indexFault a <|>
      if (a ≠ 0x07#8 ∧ s.x.r7 = 0xFF#8) ∨ (a = 0x07#8 ∧ s.mem.read s.x.r7.toNat = 0xFF#8) then
        some (.outOfBounds .stackPointer 256) else none
  | .call a => indexFault a <|>
      (if s.x.r7 = 0x00#8 then some (.outOfBounds .stackPointer (-1)) else none) <|>
      if 255 < s.pc + 2 then some (.outOfBounds .returnAddress ((s.pc + 2 : Nat) : Int)) else none
  | .ret => if s.x.r7 = 0xFF#8 then some (.outOfBounds .stackPointer 256) else none
  | .add a b => indexFault a <|> indexFault b
  | .cmp a b => indexFault a <|> indexFault b
  | .jmp a => indexFault a
  | .jne a => if s.fl.getLsbD 0 then none else indexFault a
  | .jeq a => if s.fl.getLsbD 0 then indexFault a else none
  | .and a b => indexFault a <|> indexFault b
  | .or a b => indexFault a <|> indexFault b

end Sys2Proof.Machine
end

