-- ==== Sys2Proof/Certificates/Slice0/Obligations.lean ====
section
/-! DEFINITION. The statements for the provers, each def Obligations.<Name> : Prop. They follow the numbered rules of
spec/. A fatal error is a next state whose `run` is Faulted (R216; log 1); `exec` does not look at `run`, `step` does
(log 2), so a statement about `exec` holds for every state. A statement that rests on a decision of the spec
(92_eei_decisions.md) says so in its docstring. -/

open Sys2Proof Sys2Proof.Machine

/-! ### Reset and load -/

/-- What reset leaves with the empty image (the table of section 8 of 10_state.md). R0 to R6 = 0 is decision D8 of the
spec (log 4), the empty output log decision D9. -/
def Obligations.ResetLeavesTheTabledValues : Prop :=
  (∀ a, State.reset.mem.read a = 0x00#8) ∧
  (∀ r, r ≠ Reg.r7 → State.reset.x.get r = 0x00#8) ∧
  State.reset.x.get .r7 = 0xF3#8 ∧ State.reset.fl = 0x00#8 ∧ State.reset.pc = 0 ∧
  State.reset.run = .running ∧ State.reset.out = []

/-- R252: execution starts at address 0, Running, with flags 0, and the first byte of the image is the first opcode. -/
def Obligations.ExecutionStartsAtAddressZero : Prop :=
  ∀ (image : List Nat) (s : State), loadImage image = .ok s →
    s.run = .running ∧ s.pc = 0 ∧ s.fl = 0x00#8 ∧
    (fetchWindow s).head? = some (s.mem.read 0) ∧
    ∀ v, image.head? = some v → s.mem.read 0 = BitVec.ofNat 8 v

/-- The load of an image of at most 256 bytes puts the bytes from address 0 up, leaves zero above them, and leaves all
else as reset does (section 7 of 10_state.md, section 2 of 70_reset_and_hazards.md). -/
def Obligations.LoadPlacesTheImageFromAddressZero : Prop :=
  ∀ image : List Nat, image.length ≤ 256 → (∀ v ∈ image, v ≤ 255) →
    ∃ m : Memory, loadImage image = .ok { State.reset with mem := m } ∧ m.wf ∧
      (∀ i v, image[i]? = some v → m.read i = BitVec.ofNat 8 v) ∧
      (∀ i, image.length ≤ i → m.read i = 0x00#8)

/-- A longer image, or a value above 255, is refused as a LoadError and there is no run (decision D15). -/
def Obligations.LoadRefusesOtherImages : Prop :=
  ∀ image : List Nat, 256 < image.length ∨ (∃ v ∈ image, 255 < v) →
    ∃ e, loadImage image = .error e ∧ e.name = .loadError

/-- A comment-only line and a blank line of the text form yield no byte and do not shift later addresses (section 6 of
30_encoding.md). Which characters are white space is the model's choice (log 9). -/
def Obligations.CommentAndBlankLinesYieldNoByte : Prop :=
  ∀ (before after : List (List Char)) (space comment : List Char), space.all isSpace = true →
    parseImage (before ++ (space ++ '#' :: comment) :: after) = parseImage (before ++ after) ∧
    parseImage (before ++ space :: after) = parseImage (before ++ after)

/-- A line with the eight binary digits of a byte, then a space and a comment, yields that byte (section 6 of
30_encoding.md). -/
def Obligations.BinaryLineYieldsItsByte : Prop :=
  ∀ (v : Byte) (comment : List Char),
    parseLine ([7, 6, 5, 4, 3, 2, 1, 0].map (fun i => if v.getLsbD i then '1' else '0') ++ ' ' :: '#' :: comment)
      = .ok (some v.toNat)

/-! ### Encoding -/

/-- R97: the canonical table, row by row, with every operand byte and whatever follows; no other byte is in it. -/
def Obligations.OpcodeTableRowsDecode : Prop :=
  (∀ (a b : Byte) (rest : List Byte),
    decode (0x82#8 :: a :: b :: rest) = .ok (.ldi a b, rest) ∧
    decode (0x47#8 :: a :: rest) = .ok (.prn a, rest) ∧
    decode (0x01#8 :: rest) = .ok (.hlt, rest) ∧
    decode (0xA2#8 :: a :: b :: rest) = .ok (.mul a b, rest) ∧
    decode (0x45#8 :: a :: rest) = .ok (.push a, rest) ∧
    decode (0x46#8 :: a :: rest) = .ok (.pop a, rest) ∧
    decode (0x50#8 :: a :: rest) = .ok (.call a, rest) ∧
    decode (0x11#8 :: rest) = .ok (.ret, rest) ∧
    decode (0xA0#8 :: a :: b :: rest) = .ok (.add a b, rest) ∧
    decode (0xA7#8 :: a :: b :: rest) = .ok (.cmp a b, rest) ∧
    decode (0x54#8 :: a :: rest) = .ok (.jmp a, rest) ∧
    decode (0x56#8 :: a :: rest) = .ok (.jne a, rest) ∧
    decode (0x55#8 :: a :: rest) = .ok (.jeq a, rest) ∧
    decode (0xA8#8 :: a :: b :: rest) = .ok (.and a b, rest) ∧
    decode (0xAA#8 :: a :: b :: rest) = .ok (.or a b, rest)) ∧
  ∀ op : Byte, mnemonicOf? op ≠ none ↔
    op ∈ [0x01#8, 0x11#8, 0x45#8, 0x46#8, 0x47#8, 0x50#8, 0x54#8, 0x55#8, 0x56#8, 0x82#8, 0xA0#8, 0xA2#8, 0xA7#8,
      0xA8#8, 0xAA#8]

/-- R91: `len = (opcode >> 6) + 1`, 1 to 3 for every legal opcode, and as many operand bytes are taken; no legal opcode
has the field value 3. -/
def Obligations.LengthIsTheTopBitsPlusOne : Prop :=
  (∀ (op : Byte) (m : Mnemonic), mnemonicOf? op = some m →
    opcodeLength op = op.toNat / 64 + 1 ∧ 1 ≤ opcodeLength op ∧ opcodeLength op ≤ 3 ∧
    ∀ bytes i rest, decode (op :: bytes) = .ok (i, rest) →
      i.length = opcodeLength op ∧ bytes.length + 1 = rest.length + opcodeLength op) ∧
  ∀ (op : Byte) (bytes : List Byte), op.toNat / 64 = 3 → decode (op :: bytes) = .error (.unknownOpcode op)

/-- Decoding and encoding agree in both directions, for every instruction with every operand byte: the decoder reads
`i` exactly from the bytes the encoder gives for `i`. -/
def Obligations.DecodeReadsExactlyTheEncoding : Prop :=
  ∀ (bytes : List Byte) (i : Instr) (rest : List Byte),
    decode bytes = .ok (i, rest) ↔ bytes = encode i ++ rest

/-- R94: a register operand byte is used whole as the index; above 7 the instruction raises OutOfBounds(RegIndex, byte),
whichever register operand it is. JEQ and JNE, which look at theirs only when taken, have their own statements. -/
def Obligations.RegisterByteIsTheWholeIndex : Prop :=
  (∀ r : Reg, regIdx (regByte r) = .ok r ∧ (regByte r).toNat ≤ 7) ∧
  (∀ b : Byte, b.toNat ≤ 7 → ∃ r, b = regByte r) ∧
  regByte .r0 = 0#8 ∧ regByte .r1 = 1#8 ∧ regByte .r2 = 2#8 ∧ regByte .r3 = 3#8 ∧ regByte .r4 = 4#8 ∧
  regByte .r5 = 5#8 ∧ regByte .r6 = 6#8 ∧ regByte .r7 = 7#8 ∧
  ∀ (b c : Byte) (s : State), 7 < b.toNat →
    regIdx b = .error (.outOfBounds .regIndex b.toNat) ∧
    (∀ i ∈ [Instr.ldi b c, .prn b, .mul b c, .push b, .pop b, .call b, .add b c, .cmp b c, .jmp b, .and b c, .or b c],
      exec i s = .next { s with run := .faulted (.outOfBounds .regIndex b.toNat) }) ∧
    (∀ r, ∀ i ∈ [Instr.mul (regByte r) b, .add (regByte r) b, .cmp (regByte r) b, .and (regByte r) b, .or (regByte r) b],
      exec i s = .next { s with run := .faulted (.outOfBounds .regIndex b.toNat) })

/-! ### The step -/

/-- A Running core whose bytes at `pc` decode to `i` does `exec i`, well formed or not, and adds nothing around it:
the program counter is the meaning's own business. -/
def Obligations.StepRunsTheDecodedInstruction : Prop :=
  ∀ (s : State) (i : Instr) (rest : List Byte), s.run = .running → decode (fetchWindow s) = .ok (i, rest) →
    step s = exec i s

/-- A Running core does `exec i` whenever the encoding of `i` stands in memory at `pc` and ends at or below address
255. -/
def Obligations.StepRunsTheInstructionInMemory : Prop :=
  ∀ (s : State) (i : Instr), s.run = .running → s.pc + i.length ≤ 256 →
    (∀ k v, (encode i)[k]? = some v → s.mem.read (s.pc + k) = v) → step s = exec i s

/-- `withFetchWord` does what it is for: the next step of a Running core runs the instruction written out. -/
def Obligations.FetchWordRunsNext : Prop :=
  ∀ (s : State) (nbits w : Nat) (i : Instr), s.mem.wf → s.run = .running → s.pc ≤ 253 → decodeTableWord nbits w = some i →
    step (s.withFetchWord nbits w) = exec i (s.withFetchWord nbits w)

/-- R121: the opcode is the byte at `pc`; at `pc` = 256 the fetch raises OutOfBounds(Fetch, 256) and memory is as it
was. -/
def Obligations.FetchPastTheEndRaises : Prop :=
  (∀ s : State, s.pc ≤ 255 → (fetchWindow s).head? = some (s.mem.read s.pc)) ∧
  ∀ s : State, s.run = .running → s.pc = 256 →
    step s = .next { s with run := .faulted (.outOfBounds .fetch 256) }

/-- R99, R211: each of the 241 other bytes, fetched as an opcode, raises DecodeError(opcode), and nothing but `run`
changes; 0x00 and 0xC0 to 0xFF are among them. -/
def Obligations.EveryOtherOpcodeRaisesDecodeError : Prop :=
  let legal : List Byte := [0x01#8, 0x11#8, 0x45#8, 0x46#8, 0x47#8, 0x50#8, 0x54#8, 0x55#8, 0x56#8, 0x82#8, 0xA0#8,
    0xA2#8, 0xA7#8, 0xA8#8, 0xAA#8]
  (∀ s : State, s.run = .running → s.pc ≤ 255 → s.mem.read s.pc ∉ legal →
    step s = .next { s with run := .faulted (.decodeError (s.mem.read s.pc)) }) ∧
  ((List.range 256).filter (fun n => decide (BitVec.ofNat 8 n ∉ legal))).length = 241 ∧
  0x00#8 ∉ legal ∧ ∀ op : Byte, 0xC0 ≤ op.toNat → op ∉ legal

/-- An operand byte above address 255 raises OutOfBounds(Operand, 256) before anything changes, and in every other case
the operand bytes are fetched (section 1 of 40_execution_cycle.md; decisions D5 and D13). -/
def Obligations.OperandAboveTheEndRaises : Prop :=
  ∀ (s : State) (m : Mnemonic), s.run = .running → mnemonicOf? (s.mem.read s.pc) = some m →
    (s.pc = 255 → 2 ≤ lengthOf m → step s = .next { s with run := .faulted (.outOfBounds .operand 256) }) ∧
    (s.pc = 254 → lengthOf m = 3 → step s = .next { s with run := .faulted (.outOfBounds .operand 256) }) ∧
    (s.pc + lengthOf m ≤ 256 → ∃ i, fetchInstr s = .ok i ∧ i.mnemonic = m ∧
      ∀ k v, (encode i)[k]? = some v → s.mem.read (s.pc + k) = v)

/-- A core that is not Running has no step (section 4 of 10_state.md; decision D11; that `step` then answers a named
fault is the model's choice, log 2). -/
def Obligations.StoppedCoreHasNoStep : Prop :=
  ∀ s : State, (s.run = .halted → step s = .fault .stoppedHalted) ∧
    ∀ c, s.run = .faulted c → step s = .fault (.stoppedFaulted c)

/-- R129: a Running state has exactly one next state, and a fault leaves nothing half done. -/
def Obligations.RunningCoreHasExactlyOneNextState : Prop :=
  ∀ s : State, s.run = .running →
    ∃ t, step s = .next t ∧ (∀ t', step s = .next t' → t' = t) ∧
      ∀ c, t.run = .faulted c → t = { s with run := .faulted c }

/-- R127: every instruction but HLT continues, HLT alone halts, and a fault aborts the step. -/
def Obligations.OnlyHltStopsCleanly : Prop :=
  ∀ (i : Instr) (s t : State), s.run = .running → exec i s = .next t →
    (i = .hlt → t.run = .halted) ∧
    (i ≠ .hlt → t.run = .running ∨ ∃ c, t = { s with run := .faulted c })

/-- R125: the default advance is `pc + len`, exact; after operand fetch it gives 2 to 256; at 256 the instruction has
completed, `run` is Running, and the next step faults at fetch. -/
def Obligations.DefaultAdvanceIsExact : Prop :=
  ∀ (s t : State) (i : Instr), s.run = .running → fetchInstr s = .ok i → exec i s = .next t → t.run = .running →
    (i.mnemonic ∈ [Mnemonic.ldi, .prn, .mul, .add, .cmp, .and, .or, .push, .pop] ∨
      (i.mnemonic = .jeq ∧ s.fl.getLsbD 0 = false) ∨ (i.mnemonic = .jne ∧ s.fl.getLsbD 0 = true)) →
    t.pc = s.pc + opcodeLength (s.mem.read s.pc) ∧ 2 ≤ t.pc ∧ t.pc ≤ 256 ∧
    (t.pc = 256 → step t = .next { t with run := .faulted (.outOfBounds .fetch 256) })

/-- JMP, CALL, RET, and JEQ and JNE when taken, set `pc` to a register value or, for RET, a memory byte; `len` is not
added, the target is 0 to 255, and nothing about the target or the bytes there is checked (section 2 of
40_execution_cycle.md). That CALL reads its register after the decrement, which matters for R7, is decision D10 (log 17);
where CALL and RET fault instead, the negation of their premises here, is decisions D2 and D4 (log 14). -/
def Obligations.RedirectSetsPcToAByte : Prop :=
  ∀ (s : State) (r : Reg),
    (∃ t, exec (.jmp (regByte r)) s = .next t ∧ t.run = s.run ∧ t.pc = (s.x.get r).toNat ∧ t.pc ≤ 255) ∧
    (s.x.get .r7 ≠ 0x00#8 → s.pc ≤ 253 →
      ∃ t, exec (.call (regByte r)) s = .next t ∧ t.run = s.run ∧ t.pc = (t.x.get r).toNat ∧ t.pc ≤ 255) ∧
    (s.x.get .r7 ≠ 0xFF#8 →
      ∃ t, exec .ret s = .next t ∧ t.run = s.run ∧ t.pc = (s.mem.read (s.x.get .r7).toNat).toNat ∧ t.pc ≤ 255) ∧
    (s.fl.getLsbD 0 = true →
      ∃ t, exec (.jeq (regByte r)) s = .next t ∧ t.run = s.run ∧ t.pc = (s.x.get r).toNat ∧ t.pc ≤ 255) ∧
    (s.fl.getLsbD 0 = false →
      ∃ t, exec (.jne (regByte r)) s = .next t ∧ t.run = s.run ∧ t.pc = (s.x.get r).toNat ∧ t.pc ≤ 255)

/-! ### Invariants and whole-machine rules -/

/-- Every step keeps the invariant: memory canonical, `pc` 0 to 256, FL one of 0x00, 0x01, 0x02, 0x04. -/
def Obligations.StepKeepsInvariant : Prop :=
  ∀ s t : State, s.Inv → step s = .next t → t.Inv

/-- The state after reset meets the invariant. -/
def Obligations.ResetMeetsInvariant : Prop := State.reset.Inv

/-- Every loaded state meets the invariant. -/
def Obligations.LoadedStateMeetsInvariant : Prop :=
  ∀ (image : List Nat) (s : State), loadImage image = .ok s → s.Inv

/-- A step from a Running state never stops without a reason that can be read off the state it leaves: Halted stands at
a HLT, and a Faulted cause has the kind, the value and the condition of its row of section 1 of 60_exceptions.md, the
"raised by" column and the order of the checks included: RegIndex only for an operand byte that the instruction looks
up (not LDI's immediate, not the operand of a JEQ or JNE that is not taken, operand b only behind an operand a in
range). Decisions D5, D11, D12 and D13 of the spec; POP follows its own rule (log 13). -/
def Obligations.EveryStopIsExplained : Prop :=
  ∀ s t : State, s.Inv → s.run = .running → step s = .next t → t.stopExplained = true

/-- Memories in canonical form that read alike are equal data. -/
def Obligations.CanonicalMemoriesThatReadAlikeAreEqual : Prop :=
  ∀ m n : Memory, m.wf → n.wf → (∀ a, a < 256 → m.read a = n.read a) → m = n

/-- No program can observe FL beyond bit 0: two runs of any length whose states differ only in FL bits 7:1 at the start
differ at most in FL bits 7:1 at the end (section 2 of 10_state.md; the remarks on decisions D6 and D7). -/
def Obligations.FlagsBeyondEqualAreUnobservable : Prop :=
  ∀ (n : Nat) (s t : State) (fl : Byte), fl.getLsbD 0 = s.fl.getLsbD 0 →
    Host.Core.run Sys2Proof.core n s = .next t →
    ∃ fl' : Byte, fl'.getLsbD 0 = t.fl.getLsbD 0 ∧
      Host.Core.run Sys2Proof.core n { s with fl := fl } = .next { t with fl := fl' }

/-- Which fatal error an instruction raises after operand fetch: the first failing check in the order of section 2 of
60_exceptions.md, and when none fails it completes with `run` as it was (HLT halts). Decisions D12 and D13; POP follows
its own rule (log 13). -/
def Obligations.FirstFailingCheckDecides : Prop :=
  ∀ (i : Instr) (s : State),
    (∀ c, firstFault s i = some c → exec i s = .next { s with run := .faulted c }) ∧
    (firstFault s i = none → ∃ t, exec i s = .next t ∧ (i ≠ .hlt → t.run = s.run) ∧ (i = .hlt → t.run = .halted))

/-- A well-formed instruction never raises OutOfBounds(RegIndex): the index check fails only on a byte above 7. -/
def Obligations.WellFormedInstructionsPassTheIndexCheck : Prop :=
  ∀ (i : Instr) (s t : State) (v : Int), i.wf = true → s.run = .running → exec i s = .next t →
    t.run ≠ .faulted (.outOfBounds .regIndex v)

/-! ### Frames -/

/-- Registers: PRN, HLT, CMP, JMP, JEQ, JNE change none; LDI, ADD, MUL, AND, OR only the destination; PUSH, CALL, RET
only R7; POP only the destination and R7. -/
def Obligations.RegistersChangeOnlyWhereNamed : Prop :=
  ∀ (s t : State) (a b : Byte) (r : Reg),
    (∀ i ∈ [Instr.prn a, .hlt, .cmp a b, .jmp a, .jeq a, .jne a], exec i s = .next t → t.x.get r = s.x.get r) ∧
    (∀ i ∈ [Instr.ldi a b, .add a b, .mul a b, .and a b, .or a b], exec i s = .next t → regByte r ≠ a →
      t.x.get r = s.x.get r) ∧
    (∀ i ∈ [Instr.push a, .call a, .ret], exec i s = .next t → r ≠ .r7 → t.x.get r = s.x.get r) ∧
    (exec (.pop a) s = .next t → regByte r ≠ a → r ≠ .r7 → t.x.get r = s.x.get r)

/-- FL: no instruction but CMP writes it, and CMP, when it does not fault, leaves exactly one of 0x01, 0x02, 0x04. -/
def Obligations.OnlyCmpWritesFlags : Prop :=
  ∀ (i : Instr) (s t : State), exec i s = .next t →
    (i.mnemonic ≠ .cmp → t.fl = s.fl) ∧
    (i.mnemonic = .cmp → (∃ c, t = { s with run := .faulted c }) ∨
      t.fl = 0x01#8 ∨ t.fl = 0x02#8 ∨ t.fl = 0x04#8)

/-- The run state: HLT leaves Halted, and any other instruction leaves it as it was or takes a fatal error, which
changes nothing else. -/
def Obligations.RunStateChangesOnlyByHltOrFault : Prop :=
  ∀ (i : Instr) (s t : State), exec i s = .next t →
    (i = .hlt ∧ t = { s with run := .halted }) ∨ (i ≠ .hlt ∧ t.run = s.run) ∨ ∃ c, t = { s with run := .faulted c }

/-- Memory: an instruction other than PUSH and CALL leaves every address reading as before. -/
def Obligations.NonStoringFormsLeaveMemory : Prop :=
  ∀ (i : Instr) (s t : State), i.mnemonic ≠ .push → i.mnemonic ≠ .call → exec i s = .next t →
    ∀ d, t.mem.read d = s.mem.read d

/-- Memory: PUSH and CALL leave every address but the stack slot, the address the stack-pointer controller gives; when
it gives none, every address reads as before. -/
def Obligations.StoringFormsChangeOnlyTheStackSlot : Prop :=
  ∀ (s t : State) (a : Byte), ∀ i ∈ [Instr.push a, .call a], exec i s = .next t →
    (∀ sp, spDec s = .ok sp → ∀ d, d ≠ sp.toNat → t.mem.read d = s.mem.read d) ∧
    (∀ c, spDec s = .error c → ∀ d, t.mem.read d = s.mem.read d)

/-! ### Data movement -/

/-- R160: LDI. -/
def Obligations.LdiLoadsTheImmediate : Prop :=
  ∀ (s : State) (a imm : Byte),
    decode [0x82#8, a, imm] = .ok (.ldi a imm, []) ∧
    (∀ r, exec (.ldi (regByte r) imm) s = .next { s with x := s.x.set r imm, pc := s.pc + 3 }) ∧
    (7 < a.toNat → exec (.ldi a imm) s = .next { s with run := .faulted (.outOfBounds .regIndex a.toNat) }) ∧
    (s.run = .running → s.mem.read s.pc = 0x82#8 → s.pc = 254 ∨ s.pc = 255 →
      step s = .next { s with run := .faulted (.outOfBounds .operand 256) })

/-- R161: PRN, and no other instruction, has an effect outside the core. -/
def Obligations.PrnAppendsTheRegister : Prop :=
  ∀ (s : State) (a : Byte),
    decode [0x47#8, a] = .ok (.prn a, []) ∧
    (∀ r, exec (.prn (regByte r)) s = .next { s with out := s.out ++ [s.x.get r], pc := s.pc + 2 }) ∧
    (7 < a.toNat → exec (.prn a) s = .next { s with run := .faulted (.outOfBounds .regIndex a.toNat) }) ∧
    (s.run = .running → s.mem.read s.pc = 0x47#8 → s.pc = 255 →
      step s = .next { s with run := .faulted (.outOfBounds .operand 256) }) ∧
    (∀ r, s.run = .running → s.pc = 254 → ∃ t, exec (.prn (regByte r)) s = .next t ∧ t.out = s.out ++ [s.x.get r] ∧
      t.pc = 256 ∧ step t = .next { t with run := .faulted (.outOfBounds .fetch 256) }) ∧
    (∀ i t, i.mnemonic ≠ .prn → exec i s = .next t → t.out = s.out)

/-! ### ALU -/

/-- ADD is addition modulo 256 (decision D1); operand a's index is checked first (decision D13). -/
def Obligations.AddIsModulo256 : Prop :=
  ∀ (s : State) (a b : Byte),
    (∀ ra rb, exec (.add (regByte ra) (regByte rb)) s =
      .next { s with x := s.x.set ra (BitVec.ofNat 8 (((s.x.get ra).toNat + (s.x.get rb).toNat) % 256)),
                     pc := s.pc + 3 }) ∧
    (7 < a.toNat → exec (.add a b) s = .next { s with run := .faulted (.outOfBounds .regIndex a.toNat) }) ∧
    (∀ ra, 7 < b.toNat →
      exec (.add (regByte ra) b) s = .next { s with run := .faulted (.outOfBounds .regIndex b.toNat) })

/-- MUL keeps the low 8 bits of the product (decision D1); operand a's index is checked first (decision D13). -/
def Obligations.MulKeepsTheLowByte : Prop :=
  ∀ (s : State) (a b : Byte),
    (∀ ra rb, exec (.mul (regByte ra) (regByte rb)) s =
      .next { s with x := s.x.set ra (BitVec.ofNat 8 (((s.x.get ra).toNat * (s.x.get rb).toNat) % 256)),
                     pc := s.pc + 3 }) ∧
    (7 < a.toNat → exec (.mul a b) s = .next { s with run := .faulted (.outOfBounds .regIndex a.toNat) }) ∧
    (∀ ra, 7 < b.toNat →
      exec (.mul (regByte ra) b) s = .next { s with run := .faulted (.outOfBounds .regIndex b.toNat) })

/-- R143: AND. -/
def Obligations.AndIsBitwise : Prop :=
  ∀ (s : State) (a b : Byte),
    decode [0xA8#8, a, b] = .ok (.and a b, []) ∧
    (∀ ra rb, ∃ y : Byte,
      exec (.and (regByte ra) (regByte rb)) s = .next { s with x := s.x.set ra y, pc := s.pc + 3 } ∧
      ∀ k, k ≤ 7 → y.getLsbD k = ((s.x.get ra).getLsbD k && (s.x.get rb).getLsbD k)) ∧
    (7 < a.toNat → exec (.and a b) s = .next { s with run := .faulted (.outOfBounds .regIndex a.toNat) }) ∧
    (∀ ra, 7 < b.toNat →
      exec (.and (regByte ra) b) s = .next { s with run := .faulted (.outOfBounds .regIndex b.toNat) }) ∧
    (s.run = .running → s.mem.read s.pc = 0xA8#8 → s.pc = 254 ∨ s.pc = 255 →
      step s = .next { s with run := .faulted (.outOfBounds .operand 256) })

/-- R144: OR. -/
def Obligations.OrIsBitwise : Prop :=
  ∀ (s : State) (a b : Byte),
    decode [0xAA#8, a, b] = .ok (.or a b, []) ∧
    (∀ ra rb, ∃ y : Byte,
      exec (.or (regByte ra) (regByte rb)) s = .next { s with x := s.x.set ra y, pc := s.pc + 3 } ∧
      ∀ k, k ≤ 7 → y.getLsbD k = ((s.x.get ra).getLsbD k || (s.x.get rb).getLsbD k)) ∧
    (7 < a.toNat → exec (.or a b) s = .next { s with run := .faulted (.outOfBounds .regIndex a.toNat) }) ∧
    (∀ ra, 7 < b.toNat →
      exec (.or (regByte ra) b) s = .next { s with run := .faulted (.outOfBounds .regIndex b.toNat) }) ∧
    (s.run = .running → s.mem.read s.pc = 0xAA#8 → s.pc = 254 ∨ s.pc = 255 →
      step s = .next { s with run := .faulted (.outOfBounds .operand 256) })

/-- CMP sets exactly one of E, G, L by an unsigned compare (decisions D6 and D7). -/
def Obligations.CmpSetsExactlyOneFlag : Prop :=
  ∀ (s : State) (a b : Byte),
    (∀ ra rb,
      ((s.x.get ra).toNat = (s.x.get rb).toNat →
        exec (.cmp (regByte ra) (regByte rb)) s = .next { s with fl := 0x01#8, pc := s.pc + 3 }) ∧
      ((s.x.get rb).toNat < (s.x.get ra).toNat →
        exec (.cmp (regByte ra) (regByte rb)) s = .next { s with fl := 0x02#8, pc := s.pc + 3 }) ∧
      ((s.x.get ra).toNat < (s.x.get rb).toNat →
        exec (.cmp (regByte ra) (regByte rb)) s = .next { s with fl := 0x04#8, pc := s.pc + 3 })) ∧
    (7 < a.toNat → exec (.cmp a b) s = .next { s with run := .faulted (.outOfBounds .regIndex a.toNat) }) ∧
    (∀ ra, 7 < b.toNat →
      exec (.cmp (regByte ra) b) s = .next { s with run := .faulted (.outOfBounds .regIndex b.toNat) })

/-! ### Stack -/

/-- PUSH: decrement R7, store at the new R7 the register read after the decrement; `x[7]` = 0 raises
OutOfBounds(StackPointer, -1) (decisions D2 and D10). -/
def Obligations.PushStoresBelowTheStackPointer : Prop :=
  ∀ (s : State) (a : Byte) (r : Reg),
    (s.x.get .r7 ≠ 0x00#8 →
      let sp := BitVec.ofNat 8 ((s.x.get .r7).toNat - 1)
      exec (.push (regByte r)) s =
        .next { s with x := s.x.set .r7 sp, mem := s.mem.write sp.toNat (if r = .r7 then sp else s.x.get r),
                       pc := s.pc + 2 }) ∧
    (s.x.get .r7 = 0x00#8 →
      exec (.push (regByte r)) s = .next { s with run := .faulted (.outOfBounds .stackPointer (-1)) }) ∧
    (7 < a.toNat → exec (.push a) s = .next { s with run := .faulted (.outOfBounds .regIndex a.toNat) })

/-- POP: load at R7, write the register, then increment R7; `POP R7` leaves the popped byte plus one; leaving 255 raises
OutOfBounds(StackPointer, 256) (decisions D2 and D10). -/
def Obligations.PopLoadsAtTheStackPointer : Prop :=
  ∀ (s : State) (a : Byte) (r : Reg),
    let v := s.mem.read (s.x.get .r7).toNat
    (r ≠ .r7 → s.x.get .r7 ≠ 0xFF#8 →
      exec (.pop (regByte r)) s =
        .next { s with x := (s.x.set r v).set .r7 (BitVec.ofNat 8 ((s.x.get .r7).toNat + 1)), pc := s.pc + 2 }) ∧
    (v ≠ 0xFF#8 →
      exec (.pop 0x07#8) s = .next { s with x := s.x.set .r7 (BitVec.ofNat 8 (v.toNat + 1)), pc := s.pc + 2 }) ∧
    (r ≠ .r7 → s.x.get .r7 = 0xFF#8 →
      exec (.pop (regByte r)) s = .next { s with run := .faulted (.outOfBounds .stackPointer 256) }) ∧
    (v = 0xFF#8 → exec (.pop 0x07#8) s = .next { s with run := .faulted (.outOfBounds .stackPointer 256) }) ∧
    (7 < a.toNat → exec (.pop a) s = .next { s with run := .faulted (.outOfBounds .regIndex a.toNat) })

/-- PUSH then POP of the same register, R7 included, restores the registers; only the pushed byte stays behind in memory
(properties a and c of R173, which the spec derives). -/
def Obligations.PushThenPopRestoresTheRegisters : Prop :=
  ∀ (s : State) (r : Reg), s.mem.wf → s.x.get .r7 ≠ 0x00#8 →
    ∃ t u, exec (.push (regByte r)) s = .next t ∧ exec (.pop (regByte r)) t = .next u ∧ u.x = s.x ∧
      u.mem.read ((s.x.get .r7).toNat - 1) = t.x.get r ∧
      (∀ d, d ≠ (s.x.get .r7).toNat - 1 → u.mem.read d = s.mem.read d) ∧ u.fl = s.fl ∧ u.out = s.out ∧ u.run = s.run

/-- Pushes and pops nest last-in first-out: after PUSH a, PUSH b, POP c, POP d the register c holds the old b and d the
old a, for registers other than R7 (property b of R173, which the spec derives). -/
def Obligations.PushesAndPopsNest : Prop :=
  ∀ (s : State) (a b c d : Reg), s.mem.wf → a ≠ .r7 → b ≠ .r7 → c ≠ .r7 → d ≠ .r7 → c ≠ d → 2 ≤ (s.x.get .r7).toNat →
    ∃ t₁ t₂ t₃ t₄, exec (.push (regByte a)) s = .next t₁ ∧ exec (.push (regByte b)) t₁ = .next t₂ ∧
      exec (.pop (regByte c)) t₂ = .next t₃ ∧ exec (.pop (regByte d)) t₃ = .next t₄ ∧
      t₄.x.get c = s.x.get b ∧ t₄.x.get d = s.x.get a ∧ t₄.x.get .r7 = s.x.get .r7

/-- A byte PUSH or CALL stores is seen by every later fetch of that address, opcode or operand, wherever it lies, from the
very next one on (section 4 of 20_memory.md). In any state `u` that still holds the stored byte, the state right after the
store (`u = t`) among them: if the fetch window reaches the address as its byte `k`, byte `k` of the window is the stored
byte, and so is byte `k` of the instruction fetched (0 the opcode, 1 and 2 the operands). -/
def Obligations.StoredByteIsSeenByTheNextFetch : Prop :=
  ∀ (s t : State) (sp v : Byte) (i : Instr), s.mem.wf → spDec s = .ok sp → t.run = .running → exec i s = .next t →
    ((∃ r, i = .push (regByte r) ∧ v = t.x.get r) ∨ (∃ r, i = .call (regByte r) ∧ v = BitVec.ofNat 8 (s.pc + 2))) →
    t.mem.read sp.toNat = v ∧
    ∀ (u : State) (k : Nat), u.mem.read sp.toNat = t.mem.read sp.toNat → k ≤ 2 → u.pc + k = sp.toNat →
      (fetchWindow u)[k]? = some v ∧
      ∀ j, fetchInstr u = .ok j → k < j.length → (encode j)[k]? = some v

/-! ### Control transfer -/

/-- R181: JMP. -/
def Obligations.JmpGoesToTheRegister : Prop :=
  ∀ (s : State) (a : Byte),
    decode [0x54#8, a] = .ok (.jmp a, []) ∧
    (∀ r, exec (.jmp (regByte r)) s = .next { s with pc := (s.x.get r).toNat }) ∧
    (7 < a.toNat → exec (.jmp a) s = .next { s with run := .faulted (.outOfBounds .regIndex a.toNat) }) ∧
    (s.run = .running → s.mem.read s.pc = 0x54#8 → s.pc = 255 →
      step s = .next { s with run := .faulted (.outOfBounds .operand 256) })

/-- R182: JEQ reads FL bit 0 only; when it is not taken the register index is not checked; the operand byte is always
fetched. -/
def Obligations.JeqJumpsWhenEqualIsSet : Prop :=
  ∀ (s : State) (a : Byte),
    decode [0x55#8, a] = .ok (.jeq a, []) ∧ State.reset.fl.getLsbD 0 = false ∧
    (∀ r, s.fl.getLsbD 0 = true → exec (.jeq (regByte r)) s = .next { s with pc := (s.x.get r).toNat }) ∧
    (s.fl.getLsbD 0 = true → 7 < a.toNat →
      exec (.jeq a) s = .next { s with run := .faulted (.outOfBounds .regIndex a.toNat) }) ∧
    (s.fl.getLsbD 0 = false → exec (.jeq a) s = .next { s with pc := s.pc + 2 }) ∧
    (∀ ra rb r t, s.x.get ra = s.x.get rb → exec (.cmp (regByte ra) (regByte rb)) s = .next t →
      exec (.jeq (regByte r)) t = .next { t with pc := (t.x.get r).toNat }) ∧
    (s.run = .running → s.mem.read s.pc = 0x55#8 → s.pc = 255 →
      step s = .next { s with run := .faulted (.outOfBounds .operand 256) })

/-- R183: JNE, the complement of JEQ. -/
def Obligations.JneJumpsWhenEqualIsClear : Prop :=
  ∀ (s : State) (a : Byte),
    decode [0x56#8, a] = .ok (.jne a, []) ∧ State.reset.fl.getLsbD 0 = false ∧
    (∀ r, s.fl.getLsbD 0 = false → exec (.jne (regByte r)) s = .next { s with pc := (s.x.get r).toNat }) ∧
    (s.fl.getLsbD 0 = false → 7 < a.toNat →
      exec (.jne a) s = .next { s with run := .faulted (.outOfBounds .regIndex a.toNat) }) ∧
    (s.fl.getLsbD 0 = true → exec (.jne a) s = .next { s with pc := s.pc + 2 }) ∧
    (∀ ra rb t, s.x.get ra = s.x.get rb → exec (.cmp (regByte ra) (regByte rb)) s = .next t →
      exec (.jne a) t = .next { t with pc := t.pc + 2 }) ∧
    (s.run = .running → s.mem.read s.pc = 0x56#8 → s.pc = 255 →
      step s = .next { s with run := .faulted (.outOfBounds .operand 256) })

/-- CALL: push `pc + 2` as one byte, jump to the register read after the decrement; its faults in their order
(decisions D2, D4, D10 and D13). -/
def Obligations.CallPushesTheReturnAddress : Prop :=
  ∀ (s : State) (a : Byte) (r : Reg),
    (s.x.get .r7 ≠ 0x00#8 → s.pc + 2 ≤ 255 →
      let sp := BitVec.ofNat 8 ((s.x.get .r7).toNat - 1)
      exec (.call (regByte r)) s =
        .next { s with x := s.x.set .r7 sp, mem := s.mem.write sp.toNat (BitVec.ofNat 8 (s.pc + 2)),
                       pc := (if r = .r7 then sp else s.x.get r).toNat }) ∧
    (s.x.get .r7 = 0x00#8 →
      exec (.call (regByte r)) s = .next { s with run := .faulted (.outOfBounds .stackPointer (-1)) }) ∧
    (s.x.get .r7 ≠ 0x00#8 → s.pc = 254 →
      exec (.call (regByte r)) s = .next { s with run := .faulted (.outOfBounds .returnAddress 256) }) ∧
    (7 < a.toNat → exec (.call a) s = .next { s with run := .faulted (.outOfBounds .regIndex a.toNat) })

/-- RET: `pc` becomes the byte at R7, R7 is incremented; `x[7]` = 255 raises OutOfBounds(StackPointer, 256)
(decision D2). -/
def Obligations.RetGoesToThePoppedByte : Prop :=
  ∀ s : State,
    (s.x.get .r7 ≠ 0xFF#8 →
      exec .ret s = .next { s with x := s.x.set .r7 (BitVec.ofNat 8 ((s.x.get .r7).toNat + 1)),
                                   pc := (s.mem.read (s.x.get .r7).toNat).toNat }) ∧
    (s.x.get .r7 = 0xFF#8 → exec .ret s = .next { s with run := .faulted (.outOfBounds .stackPointer 256) })

/-- CALL then RET returns to the instruction after the CALL and restores R7 and every other register, whatever the
subroutine did between that left R7 and the stored byte as it found them (property a of R186, which the
spec derives). -/
def Obligations.CallThenRetReturns : Prop :=
  ∀ (s : State) (r : Reg), s.mem.wf → s.x.get .r7 ≠ 0x00#8 → s.pc + 2 ≤ 255 →
    ∃ t, exec (.call (regByte r)) s = .next t ∧
      ∀ u : State, u.x.get .r7 = t.x.get .r7 →
        u.mem.read (u.x.get .r7).toNat = t.mem.read (u.x.get .r7).toNat →
        ∃ v, exec .ret u = .next v ∧ v.pc = s.pc + 2 ∧ v.x.get .r7 = s.x.get .r7 ∧
          (∀ q, q ≠ .r7 → v.x.get q = u.x.get q) ∧ v.mem = u.mem

/-! ### System, status, output -/

/-- R200: HLT sets `run` to Halted and changes nothing else, at any address up to 255, and no step leaves Halted. -/
def Obligations.HltStopsInPlace : Prop :=
  decode [0x01#8] = .ok (.hlt, []) ∧
  (∀ s : State, exec .hlt s = .next { s with run := .halted }) ∧
  (∀ s : State, s.run = .running → s.pc ≤ 255 → s.mem.read s.pc = 0x01#8 → step s = .next { s with run := .halted }) ∧
  ∀ s t : State, s.run = .halted → step s ≠ .next t

/-- The numbers of the status interface (decision D12 of the spec). -/
def Obligations.StatusCodesAreAsAssigned : Prop :=
  ErrorName.loadError.code = 1 ∧ ErrorName.decodeError.code = 2 ∧ ErrorName.outOfBounds.code = 3 ∧
  ErrorName.unsupportedALUOp.code = 4 ∧
  OobKind.fetch.code = 1 ∧ OobKind.operand.code = 2 ∧ OobKind.regIndex.code = 3 ∧ OobKind.stackPointer.code = 4 ∧
  OobKind.returnAddress.code = 5 ∧
  Run.running.causeCode = 0 ∧ Run.halted.causeCode = 0 ∧
  (∀ op, (Run.faulted (.decodeError op)).causeCode = 2) ∧
  ∀ k v, (Run.faulted (.outOfBounds k v)).causeCode = 3 ∧ (Run.faulted (.outOfBounds k v)).kindCode = k.code

/-- The output log renders value by value, each as a numeral of one to three decimal digits without leading zero whose
value is the byte, then a line feed (R162, decision D9). -/
def Obligations.OutputRendersOneNumeralPerLine : Prop :=
  (∀ (out : List Byte) (v : Byte), renderOutput (out ++ [v]) = renderOutput out ++ (decimal v ++ ['\n'])) ∧
  renderOutput [] = [] ∧
  ∀ v : Byte, 1 ≤ (decimal v).length ∧ (decimal v).all Char.isDigit = true ∧
    (decimal v).foldl (fun n c => 10 * n + (c.toNat - 48)) 0 = v.toNat ∧
    ((decimal v).head? = some '0' → v = 0x00#8 ∧ (decimal v).length = 1)
end

