-- ==== Sys2Proof/Laws/Decode.lean ====
section
/-! SUPPORT. The laws of the decoder: the opcode table read both ways, and what each operand format does. -/

namespace Sys2Proof

/-! ### Lengths (R91) -/

@[simp] theorem lengthOf_ldi : lengthOf .ldi = 3 := rfl
@[simp] theorem lengthOf_prn : lengthOf .prn = 2 := rfl
@[simp] theorem lengthOf_hlt : lengthOf .hlt = 1 := rfl
@[simp] theorem lengthOf_mul : lengthOf .mul = 3 := rfl
@[simp] theorem lengthOf_push : lengthOf .push = 2 := rfl
@[simp] theorem lengthOf_pop : lengthOf .pop = 2 := rfl
@[simp] theorem lengthOf_call : lengthOf .call = 2 := rfl
@[simp] theorem lengthOf_ret : lengthOf .ret = 1 := rfl
@[simp] theorem lengthOf_add : lengthOf .add = 3 := rfl
@[simp] theorem lengthOf_cmp : lengthOf .cmp = 3 := rfl
@[simp] theorem lengthOf_jmp : lengthOf .jmp = 2 := rfl
@[simp] theorem lengthOf_jne : lengthOf .jne = 2 := rfl
@[simp] theorem lengthOf_jeq : lengthOf .jeq = 2 := rfl
@[simp] theorem lengthOf_and : lengthOf .and = 3 := rfl
@[simp] theorem lengthOf_or : lengthOf .or = 3 := rfl


/-- The lookup answers only with a row of the table. -/
theorem mem_of_lookupOpcode {op : Byte} {m : Mnemonic} {rows : List (Byte × Mnemonic)}
    (h : lookupOpcode op rows = some m) : (op, m) ∈ rows := by
  induction rows with
  | nil => cases h
  | cons row rows ih =>
    obtain ⟨v, n⟩ := row
    unfold lookupOpcode at h
    split at h
    · next hv => cases h; simp [hv]
    · exact List.mem_cons_of_mem _ (ih h)

/-- A byte is in the table under a mnemonic exactly when it is that mnemonic's opcode (R96, R97). -/
theorem mnemonicOf?_eq_some {op : Byte} {m : Mnemonic} : mnemonicOf? op = some m ↔ op = opcodeOf m := by
  constructor
  · intro h
    have rows : ∀ row ∈ opcodeTable, row.1 = opcodeOf row.2 := by decide
    exact rows _ (mem_of_lookupOpcode h)
  · rintro rfl
    cases m <;> rfl

/-- The decoder's answer for an opcode of the table. -/
theorem decode_opcodeOf (m : Mnemonic) (bytes : List Byte) :
    decode (opcodeOf m :: bytes) = decodeOperands m bytes := by
  cases m <;> rfl

/-- The decoder's answer for any other byte (R99). -/
theorem decode_unknown {op : Byte} (h : mnemonicOf? op = none) (bytes : List Byte) :
    decode (op :: bytes) = .error (.unknownOpcode op) := by
  simp [decode, h]

/-- Everything the operand formats can do with enough or too few bytes (R92, R123). -/
theorem decodeOperands_cases (m : Mnemonic) (bytes : List Byte) :
    (∃ i rest, decodeOperands m bytes = .ok (i, rest) ∧ i.mnemonic = m ∧ bytes = i.operandBytes ++ rest) ∨
    (bytes.length = 0 ∧ 2 ≤ lengthOf m ∧ decodeOperands m bytes = .error (.missingOperand 1)) ∨
    (bytes.length = 1 ∧ lengthOf m = 3 ∧ decodeOperands m bytes = .error (.missingOperand 2)) := by
  rcases bytes with _ | ⟨a, _ | ⟨b, rest⟩⟩ <;> cases m <;>
    first
    | exact .inl ⟨_, _, rfl, rfl, rfl⟩
    | exact .inr (.inl ⟨rfl, by decide, rfl⟩)
    | exact .inr (.inr ⟨rfl, by decide, rfl⟩)

end Sys2Proof
end

