-- ==== Sys2Proof/Laws/Memory.lean ====
section
/-! SUPPORT. The laws of memory: read after write, and that every memory operation keeps the canonical form. -/

namespace Sys2Proof.Machine

/-- Reading the address just written gives the byte written (R65). -/
@[simp] theorem Memory.read_write_self (m : Memory) (a : Nat) (v : Byte) (h : m.wf) :
    (m.write a v).read a = v := by
  obtain ⟨hs, -⟩ := h
  induction m with
  | nil => by_cases hv : v = Config.unlistedByte <;> simp [Memory.write, Memory.read, hv]
  | cons c m ih =>
    obtain ⟨b, w⟩ := c
    rw [List.pairwise_cons] at hs
    have absent : ∀ (l : Memory), (∀ d ∈ l, a < d.1) → Memory.read l a = Config.unlistedByte := by
      intro l hl
      induction l with
      | nil => rfl
      | cons d l ihl =>
        have h1 := hl d (by simp)
        have h2 : a ≠ d.1 := by omega
        simp only [Memory.read, if_neg h2]
        exact ihl fun e he => hl e (by simp [he])
    by_cases h1 : a < b
    · have h2 : a ≠ b := by omega
      by_cases hv : v = Config.unlistedByte
      · simp only [Memory.write, if_pos h1, if_pos hv, Memory.read, if_neg h2]
        rw [absent m fun d hd => lt_trans h1 (hs.1 d hd), hv]
      · simp [Memory.write, h1, hv, Memory.read]
    · by_cases h2 : a = b
      · subst h2
        by_cases hv : v = Config.unlistedByte
        · simp only [Memory.write, if_neg h1, if_true, if_pos hv]
          rw [absent m fun d hd => hs.1 d hd, hv]
        · simp [Memory.write, hv, Memory.read]
      · simp only [Memory.write, if_neg h1, if_neg h2, Memory.read]
        exact ih hs.2

/-- A write leaves every other address (R65). -/
theorem Memory.read_write_ne (m : Memory) {a d : Nat} (v : Byte) (h : d ≠ a) :
    (m.write a v).read d = m.read d := by
  induction m with
  | nil => by_cases hv : v = Config.unlistedByte <;> simp [Memory.write, Memory.read, hv, h]
  | cons c m ih =>
    obtain ⟨b, w⟩ := c
    by_cases h1 : a < b
    · by_cases hv : v = Config.unlistedByte <;> simp [Memory.write, h1, hv, Memory.read, h]
    · by_cases h2 : a = b
      · subst h2
        by_cases hv : v = Config.unlistedByte <;> simp [Memory.write, hv, Memory.read, h]
      · simp only [Memory.write, if_neg h1, if_neg h2, Memory.read, ih]

/-- Where a cell of the memory after a write comes from. -/
theorem Memory.mem_write {m : Memory} {a : Nat} {v : Byte} {c : Host.Cell} (h : c ∈ m.write a v) :
    c ∈ m ∨ (c = (a, v) ∧ v ≠ Config.unlistedByte) := by
  induction m with
  | nil =>
    by_cases hv : v = Config.unlistedByte
    · simp [Memory.write, hv] at h
    · simp only [Memory.write, if_neg hv, List.mem_singleton] at h
      exact .inr ⟨h, hv⟩
  | cons d m ih =>
    obtain ⟨b, w⟩ := d
    by_cases hv : v = Config.unlistedByte <;> by_cases h1 : a < b <;> by_cases h2 : a = b <;>
      simp only [Memory.write, hv, h1, h2, if_true, if_false, List.mem_cons, lt_irrefl] at h ih ⊢ <;> tauto

/-- A write to an address keeps the canonical form. -/
theorem Memory.write_wf {m : Memory} {a : Nat} (v : Byte) (h : m.wf) (ha : a < Config.memSize) :
    (m.write a v).wf := by
  refine ⟨?_, fun c hc => ?_⟩
  · replace h := h.1
    induction m with
    | nil => by_cases hv : v = Config.unlistedByte <;> simp [Memory.write, hv]
    | cons d m ih =>
      obtain ⟨b, w⟩ := d
      have hp := List.pairwise_cons.mp h
      by_cases h1 : a < b
      · by_cases hv : v = Config.unlistedByte
        · simpa only [Memory.write, if_pos h1, if_pos hv] using h
        · simp only [Memory.write, if_pos h1, if_neg hv]
          refine List.pairwise_cons.mpr ⟨fun c hc => ?_, h⟩
          obtain rfl | hc := List.mem_cons.mp hc
          · exact h1
          · exact lt_trans h1 (hp.1 c hc)
      · by_cases h2 : a = b
        · subst h2
          by_cases hv : v = Config.unlistedByte
          · simpa only [Memory.write, lt_irrefl, if_false, if_true, if_pos hv] using hp.2
          · simp only [Memory.write, lt_irrefl, if_false, if_true, if_neg hv]
            exact List.pairwise_cons.mpr ⟨hp.1, hp.2⟩
        · simp only [Memory.write, if_neg h1, if_neg h2]
          refine List.pairwise_cons.mpr ⟨fun c hc => ?_, ih hp.2⟩
          obtain hc | ⟨rfl, -⟩ := Memory.mem_write hc
          · exact hp.1 c hc
          · simp only; omega
  · obtain hc | ⟨rfl, hv⟩ := Memory.mem_write hc
    · exact h.2 c hc
    · exact ⟨ha, hv⟩

/-- `MemRead`: below 256 the byte, else nothing (R61). -/
theorem Memory.read?_eq (m : Memory) (a : Nat) : m.read? a = if a < 256 then some (m.read a) else none := rfl

/-- `MemWrite` keeps the canonical form (R61). -/
theorem Memory.write?_wf {m n : Memory} {a : Nat} {v : Byte} (h : m.wf) (hn : m.write? a v = some n) : n.wf := by
  unfold Memory.write? at hn
  split at hn
  · next ha => cases hn; exact Memory.write_wf v h ha
  · cases hn

/-- Storing a list of bytes keeps the canonical form. -/
theorem Memory.writeBytes_wf {m : Memory} (a : Nat) (vs : List Byte) (h : m.wf) : (m.writeBytes a vs).wf := by
  induction vs generalizing m a with
  | nil => exact h
  | cons v vs ih =>
    refine ih (a + 1) ?_
    cases hw : m.write? a v with
    | none => exact h
    | some n => exact Memory.write?_wf h hw

/-- What memory reads as after a list of bytes is stored from `a` up: the byte of the list where one was stored below
256, else what was there. -/
theorem Memory.read_writeBytes {m : Memory} (a d : Nat) (vs : List Byte) (h : m.wf) :
    (m.writeBytes a vs).read d =
      if a ≤ d ∧ d < Config.memSize then (vs[d - a]?).getD (m.read d) else m.read d := by
  induction vs generalizing m a with
  | nil => simp [Memory.writeBytes]
  | cons v vs ih =>
    have hw : ((m.write? a v).getD m).wf := by
      cases hw : m.write? a v with
      | none => exact h
      | some n => exact Memory.write?_wf h hw
    have hr : ∀ e, ((m.write? a v).getD m).read e =
        if e = a ∧ e < Config.memSize then v else m.read e := by
      intro e
      by_cases ha : a < Config.memSize
      · simp only [Memory.write?, if_pos ha, Option.getD_some]
        by_cases he : e = a
        · subst he; simp [ha, Memory.read_write_self _ _ _ h]
        · simp [he, Memory.read_write_ne _ _ he]
      · simp only [Memory.write?, if_neg ha, Option.getD_none]
        by_cases he : e = a
        · subst he; simp [ha]
        · simp [he]
    simp only [Memory.writeBytes]
    rw [ih (a + 1) hw, hr]
    by_cases hd : d < Config.memSize
    · rcases lt_trichotomy d a with h1 | rfl | h1
      · simp [hd, show ¬ a + 1 ≤ d by omega, show ¬ a ≤ d by omega, show d ≠ a by omega]
      · simp [hd]
      · obtain ⟨k, rfl⟩ : ∃ k, d = a + 1 + k := ⟨d - (a + 1), by omega⟩
        simp [hd, show a ≤ a + 1 + k by omega, show a + 1 + k ≠ a by omega, show a + 1 + k - a = k + 1 by omega]
    · simp [hd]

/-- Reset memory is canonical: nothing is listed. -/
theorem reset_mem_wf : State.reset.mem.wf := by decide

end Sys2Proof.Machine
end

