-- ==== Sys2Proof/Laws/State.lean ====
section
/-! SUPPORT. One lemma per field per update of the state, true by rfl, and the register file's read and write laws:
later proofs never unfold a record update. -/

namespace Sys2Proof.Machine

variable (s : State)

@[simp] theorem State.setReg_mem (r : Reg) (v : Byte) : (s.setReg r v).mem = s.mem := rfl
@[simp] theorem State.setReg_x (r : Reg) (v : Byte) : (s.setReg r v).x = s.x.set r v := rfl
@[simp] theorem State.setReg_fl (r : Reg) (v : Byte) : (s.setReg r v).fl = s.fl := rfl
@[simp] theorem State.setReg_pc (r : Reg) (v : Byte) : (s.setReg r v).pc = s.pc := rfl
@[simp] theorem State.setReg_run (r : Reg) (v : Byte) : (s.setReg r v).run = s.run := rfl
@[simp] theorem State.setReg_out (r : Reg) (v : Byte) : (s.setReg r v).out = s.out := rfl

@[simp] theorem State.store_mem (a v : Byte) : (s.store a v).mem = s.mem.write a.toNat v := rfl
@[simp] theorem State.store_x (a v : Byte) : (s.store a v).x = s.x := rfl
@[simp] theorem State.store_fl (a v : Byte) : (s.store a v).fl = s.fl := rfl
@[simp] theorem State.store_pc (a v : Byte) : (s.store a v).pc = s.pc := rfl
@[simp] theorem State.store_run (a v : Byte) : (s.store a v).run = s.run := rfl
@[simp] theorem State.store_out (a v : Byte) : (s.store a v).out = s.out := rfl

@[simp] theorem State.setFl_mem (v : Byte) : (s.setFl v).mem = s.mem := rfl
@[simp] theorem State.setFl_x (v : Byte) : (s.setFl v).x = s.x := rfl
@[simp] theorem State.setFl_fl (v : Byte) : (s.setFl v).fl = v := rfl
@[simp] theorem State.setFl_pc (v : Byte) : (s.setFl v).pc = s.pc := rfl
@[simp] theorem State.setFl_run (v : Byte) : (s.setFl v).run = s.run := rfl
@[simp] theorem State.setFl_out (v : Byte) : (s.setFl v).out = s.out := rfl

@[simp] theorem State.advance_mem (n : Nat) : (s.advance n).mem = s.mem := rfl
@[simp] theorem State.advance_x (n : Nat) : (s.advance n).x = s.x := rfl
@[simp] theorem State.advance_fl (n : Nat) : (s.advance n).fl = s.fl := rfl
@[simp] theorem State.advance_pc (n : Nat) : (s.advance n).pc = s.pc + n := rfl
@[simp] theorem State.advance_run (n : Nat) : (s.advance n).run = s.run := rfl
@[simp] theorem State.advance_out (n : Nat) : (s.advance n).out = s.out := rfl

@[simp] theorem State.jump_mem (v : Byte) : (s.jump v).mem = s.mem := rfl
@[simp] theorem State.jump_x (v : Byte) : (s.jump v).x = s.x := rfl
@[simp] theorem State.jump_fl (v : Byte) : (s.jump v).fl = s.fl := rfl
@[simp] theorem State.jump_pc (v : Byte) : (s.jump v).pc = v.toNat := rfl
@[simp] theorem State.jump_run (v : Byte) : (s.jump v).run = s.run := rfl
@[simp] theorem State.jump_out (v : Byte) : (s.jump v).out = s.out := rfl

@[simp] theorem State.print_mem (v : Byte) : (s.print v).mem = s.mem := rfl
@[simp] theorem State.print_x (v : Byte) : (s.print v).x = s.x := rfl
@[simp] theorem State.print_fl (v : Byte) : (s.print v).fl = s.fl := rfl
@[simp] theorem State.print_pc (v : Byte) : (s.print v).pc = s.pc := rfl
@[simp] theorem State.print_run (v : Byte) : (s.print v).run = s.run := rfl
@[simp] theorem State.print_out (v : Byte) : (s.print v).out = s.out ++ [v] := rfl

@[simp] theorem State.halt_mem : (s.halt).mem = s.mem := rfl
@[simp] theorem State.halt_x : (s.halt).x = s.x := rfl
@[simp] theorem State.halt_fl : (s.halt).fl = s.fl := rfl
@[simp] theorem State.halt_pc : (s.halt).pc = s.pc := rfl
@[simp] theorem State.halt_run : (s.halt).run = .halted := rfl
@[simp] theorem State.halt_out : (s.halt).out = s.out := rfl

@[simp] theorem State.raised_mem (c : Cause) : (s.raised c).mem = s.mem := rfl
@[simp] theorem State.raised_x (c : Cause) : (s.raised c).x = s.x := rfl
@[simp] theorem State.raised_fl (c : Cause) : (s.raised c).fl = s.fl := rfl
@[simp] theorem State.raised_pc (c : Cause) : (s.raised c).pc = s.pc := rfl
@[simp] theorem State.raised_run (c : Cause) : (s.raised c).run = .faulted c := rfl
@[simp] theorem State.raised_out (c : Cause) : (s.raised c).out = s.out := rfl

/-! ### Registers -/

/-- A register reads back what was written to it (R21). -/
@[simp] theorem Regs.get_set_self (x : Regs) (r : Reg) (v : Byte) : (x.set r v).get r = v := by
  cases r <;> rfl

/-- A write leaves every other register (R21). -/
theorem Regs.get_set_ne (x : Regs) {q r : Reg} (v : Byte) (h : q ≠ r) : (x.set r v).get q = x.get q := by
  cases r <;> cases q <;> first | rfl | exact absurd rfl h

/-- Reading after a write, both cases at once. -/
theorem Regs.get_set (x : Regs) (q r : Reg) (v : Byte) :
    (x.set r v).get q = if q = r then v else x.get q := by
  split
  · next h => rw [h, Regs.get_set_self]
  · next h => exact Regs.get_set_ne x v h

/-- A register file is determined by what its registers read as. -/
theorem Regs.ext_get {x y : Regs} (h : ∀ r, x.get r = y.get r) : x = y := by
  cases x; cases y
  simp only [Regs.mk.injEq]
  exact ⟨h .r0, h .r1, h .r2, h .r3, h .r4, h .r5, h .r6, h .r7⟩

@[simp] theorem Regs.get_r7 (x : Regs) : x.get .r7 = x.r7 := rfl

@[simp] theorem State.getReg_eq (r : Reg) : s.getReg r = s.x.get r := rfl

@[simp] theorem State.load_eq (a : Byte) : s.load a = s.mem.read a.toNat := rfl

end Sys2Proof.Machine
end

