-- ==== Sys2Proof/Laws/Ops.lean ====
section
/-! SUPPORT. One lemma per shared operation, which says once everything it can do; the provers cite these instead of
unfolding the operation. -/

namespace Sys2Proof.Machine

/-! ### Ending an instruction -/

@[simp] theorem complete_ok (s t : State) : complete s (.ok t) = .next t := rfl

@[simp] theorem complete_error (s : State) (c : Cause) : complete s (.error c) = .next (s.raised c) := rfl

/-- An instruction ends in its own next state or in the raise of its first failing check, from the state before it
(R216, R217). -/
theorem complete_cases {s t : State} {e : Except Cause State} (h : complete s e = .next t) :
    e = .ok t ∨ ∃ c, e = .error c ∧ t = s.raised c := by
  cases e with
  | ok u => cases h; exact .inl rfl
  | error c => cases h; exact .inr ⟨c, rfl, rfl⟩

@[simp] theorem bind_ok {α β : Type} (a : α) (f : α → Except Cause β) : (Except.ok a >>= f) = f a := rfl

@[simp] theorem bind_error {α β : Type} (c : Cause) (f : α → Except Cause β) :
    ((Except.error c : Except Cause α) >>= f) = .error c := rfl

@[simp] theorem pure_ok {α : Type} (a : α) : (pure a : Except Cause α) = .ok a := rfl

/-- A bind that succeeds had a first part that succeeded. -/
theorem bind_eq_ok {α β : Type} {x : Except Cause α} {f : α → Except Cause β} {b : β} (h : (x >>= f) = .ok b) :
    ∃ a, x = .ok a ∧ f a = .ok b := by
  cases x with
  | ok a => exact ⟨a, rfl, h⟩
  | error c => cases h

/-! ### Register indices -/

/-- The byte of a register passes the index check as that register (R21, R94). -/
@[simp] theorem regIdx_regByte (r : Reg) : regIdx (regByte r) = .ok r := by cases r <;> rfl

/-- A byte above 7 fails the index check with its own value (R94). -/
theorem regIdx_of_gt {b : Byte} (h : 7 < b.toNat) : regIdx b = .error (.outOfBounds .regIndex b.toNat) := by
  unfold regIdx regOfByte?
  split
  · next r hr => split at hr <;> first | omega | cases hr
  · rfl

/-- A byte up to 7 is the byte of a register (R20). -/
theorem exists_regByte {b : Byte} (h : b.toNat ≤ 7) : ∃ r, b = regByte r := by
  have key : ∀ c : Byte, c.toNat ≤ 7 → c ∈ [0#8, 1#8, 2#8, 3#8, 4#8, 5#8, 6#8, 7#8] := by decide
  simp only [List.mem_cons, List.not_mem_nil, or_false] at key
  obtain h | h | h | h | h | h | h | h := key b h
  exacts [⟨.r0, h⟩, ⟨.r1, h⟩, ⟨.r2, h⟩, ⟨.r3, h⟩, ⟨.r4, h⟩, ⟨.r5, h⟩, ⟨.r6, h⟩, ⟨.r7, h⟩]

/-- The index check: the register whose byte it is, or the fault with the whole byte (R94). -/
theorem regIdx_cases (b : Byte) :
    (∃ r, b = regByte r ∧ regIdx b = .ok r) ∨
    (7 < b.toNat ∧ regIdx b = .error (.outOfBounds .regIndex b.toNat)) := by
  by_cases h : b.toNat ≤ 7
  · obtain ⟨r, rfl⟩ := exists_regByte h
    exact .inl ⟨r, rfl, regIdx_regByte r⟩
  · exact .inr ⟨by omega, regIdx_of_gt (by omega)⟩

/-- Different registers have different bytes. -/
theorem regByte_injective {q r : Reg} (h : regByte q = regByte r) : q = r := by
  revert h; cases q <;> cases r <;> decide

/-- Both index checks of format RR, operand a first (R148, R218). -/
theorem regPair_cases (a b : Byte) :
    (∃ ra rb, a = regByte ra ∧ b = regByte rb ∧ regPair a b = .ok (ra, rb)) ∨
    (7 < a.toNat ∧ regPair a b = .error (.outOfBounds .regIndex a.toNat)) ∨
    (∃ ra, a = regByte ra ∧ 7 < b.toNat ∧ regPair a b = .error (.outOfBounds .regIndex b.toNat)) := by
  obtain ⟨ra, rfl, ha⟩ | ⟨h, ha⟩ := regIdx_cases a
  · obtain ⟨rb, rfl, hb⟩ | ⟨h, hb⟩ := regIdx_cases b
    · exact .inl ⟨ra, rb, rfl, rfl, by simp [regPair]⟩
    · exact .inr (.inr ⟨ra, rfl, h, by simp [regPair, hb]⟩)
  · exact .inr (.inl ⟨h, by simp [regPair, ha]⟩)

/-! ### The stack-pointer controller and CALL's return address -/

/-- `SpDec` (R24). -/
theorem spDec_eq (s : State) :
    spDec s = if s.x.r7 = 0#8 then .error (.outOfBounds .stackPointer (-1)) else .ok (s.x.r7 - 1#8) := by
  have neg : ∀ v : Byte, (v.toNat : Int) - 1 < 0 ↔ v = 0#8 := by decide
  have val : ∀ v : Byte, BitVec.ofInt 8 ((v.toNat : Int) - 1) = v - 1#8 := by decide
  show (if ((s.x.r7.toNat : Int) - 1 < 0) then Except.error (Cause.outOfBounds .stackPointer ((s.x.r7.toNat : Int) - 1))
    else Except.ok (BitVec.ofInt 8 ((s.x.r7.toNat : Int) - 1))) = _
  rw [val]
  by_cases h : s.x.r7 = 0#8
  · rw [if_pos ((neg _).mpr h), if_pos h, h]; rfl
  · rw [if_neg (mt (neg _).mp h), if_neg h]

/-- `SpInc` (R24). -/
theorem spInc_eq (s : State) :
    spInc s = if s.x.r7 = 0xFF#8 then .error (.outOfBounds .stackPointer 256) else .ok (s.x.r7 + 1#8) := by
  have above : ∀ v : Byte, (v.toNat : Int) + 1 > 255 ↔ v = 0xFF#8 := by decide
  have val : ∀ v : Byte, BitVec.ofInt 8 ((v.toNat : Int) + 1) = v + 1#8 := by decide
  show (if ((s.x.r7.toNat : Int) + 1 > 255) then Except.error (Cause.outOfBounds .stackPointer ((s.x.r7.toNat : Int) + 1))
    else Except.ok (BitVec.ofInt 8 ((s.x.r7.toNat : Int) + 1))) = _
  rw [val]
  by_cases h : s.x.r7 = 0xFF#8
  · rw [if_pos ((above _).mpr h), if_pos h, h]; rfl
  · rw [if_neg (mt (above _).mp h), if_neg h]

/-- CALL's return address (R184). -/
theorem returnAddress_eq (pc len : Nat) :
    returnAddress pc len =
      if pc + len ≤ 255 then .ok (BitVec.ofNat 8 (pc + len))
      else .error (.outOfBounds .returnAddress ((pc + len : Nat) : Int)) := by
  unfold returnAddress
  split <;> split <;> first | rfl | omega

/-! ### Shared shapes of instructions -/

/-- The common part of the ALU instructions ends in one of three ways (R148). -/
theorem aluInstr_cases (op : AluOp) (len : Nat) (a b : Byte) (s : State) :
    (∃ ra rb, a = regByte ra ∧ b = regByte rb ∧
      aluInstr op len a b s =
        .next ((writeBack s ra (alu op (s.x.get ra) (s.x.get rb))).advance len)) ∨
    (7 < a.toNat ∧ aluInstr op len a b s = .next (s.raised (.outOfBounds .regIndex a.toNat))) ∨
    (∃ ra, a = regByte ra ∧ 7 < b.toNat ∧
      aluInstr op len a b s = .next (s.raised (.outOfBounds .regIndex b.toNat))) := by
  obtain ⟨ra, rb, ha, hb, h⟩ | ⟨ha, h⟩ | ⟨ra, ha, hb, h⟩ := regPair_cases a b
  · exact .inl ⟨ra, rb, ha, hb, by simp [aluInstr, h]⟩
  · exact .inr (.inl ⟨ha, by simp [aluInstr, h]⟩)
  · exact .inr (.inr ⟨ra, ha, hb, by simp [aluInstr, h]⟩)

/-- The conditional jumps end in one of three ways (R182, R183). -/
theorem branchIf_cases (taken : Bool) (len : Nat) (a : Byte) (s : State) :
    (taken = false ∧ branchIf taken len a s = .next (s.advance len)) ∨
    (∃ r, taken = true ∧ a = regByte r ∧ branchIf taken len a s = .next (s.jump (s.x.get r))) ∨
    (taken = true ∧ 7 < a.toNat ∧
      branchIf taken len a s = .next (s.raised (.outOfBounds .regIndex a.toNat))) := by
  cases taken with
  | false => exact .inl ⟨rfl, rfl⟩
  | true =>
    obtain ⟨r, ha, h⟩ | ⟨ha, h⟩ := regIdx_cases a
    · exact .inr (.inl ⟨r, rfl, ha, by simp [branchIf, h]⟩)
    · exact .inr (.inr ⟨rfl, ha, by simp [branchIf, h]⟩)

/-- CMP's flags are one of three values (R145). -/
theorem compareFlags_cases (a b : Byte) :
    (a = b ∧ compareFlags a b = 0x01#8) ∨ (b.toNat < a.toNat ∧ compareFlags a b = 0x02#8) ∨
    (a.toNat < b.toNat ∧ compareFlags a b = 0x04#8) := by
  unfold compareFlags
  by_cases h : a = b
  · exact .inl ⟨h, by rw [if_pos h]⟩
  · by_cases h' : b.toNat < a.toNat
    · exact .inr (.inl ⟨h', by rw [if_neg h, if_pos h']⟩)
    · have : a.toNat ≠ b.toNat := fun e => h (BitVec.eq_of_toNat_eq e)
      exact .inr (.inr ⟨by omega, by rw [if_neg h, if_neg h']⟩)

/-! ### Fetch and step -/

/-- The bytes the fetch offers the decoder (R61, R123). -/
theorem fetchWindow_eq (s : State) :
    fetchWindow s =
      if s.pc ≤ 253 then [s.mem.read s.pc, s.mem.read (s.pc + 1), s.mem.read (s.pc + 2)]
      else if s.pc = 254 then [s.mem.read 254, s.mem.read 255]
      else if s.pc = 255 then [s.mem.read 255]
      else [] := by
  unfold fetchWindow
  simp only [List.filterMap_cons, List.filterMap_nil, Memory.read?_eq]
  by_cases h1 : s.pc ≤ 253
  · simp [h1, show s.pc < 256 by omega, show s.pc + 1 < 256 by omega, show s.pc + 2 < 256 by omega]
  · by_cases h2 : s.pc = 254
    · simp [h2]
    · by_cases h3 : s.pc = 255
      · simp [h3]
      · simp [h1, h2, h3, show ¬ s.pc < 256 by omega, show ¬ s.pc + 1 < 256 by omega,
          show ¬ s.pc + 2 < 256 by omega]

/-- The instruction at `pc` is what the decoder reads from the window. -/
theorem fetchInstr_cases (s : State) :
    (∃ i rest, decode (fetchWindow s) = .ok (i, rest) ∧ fetchInstr s = .ok i) ∨
    (∃ e, decode (fetchWindow s) = .error e ∧ fetchInstr s = .error (rejectCause s.pc e)) := by
  unfold fetchInstr
  cases h : decode (fetchWindow s) with
  | ok p => exact .inl ⟨p.1, p.2, rfl, rfl⟩
  | error e => exact .inr ⟨e, rfl, rfl⟩

/-- Everything a step can do: it is taken from a Running state, and raises the fault of the fetch or runs the
instruction fetched (R120, R128). -/
theorem step_cases {s t : State} (h : step s = .next t) :
    s.run = .running ∧
    ((∃ c, fetchInstr s = .error c ∧ t = s.raised c) ∨ ∃ i, fetchInstr s = .ok i ∧ exec i s = .next t) := by
  unfold step at h
  split at h
  · cases h
  · cases h
  · next hr =>
    refine ⟨hr, ?_⟩
    split at h
    · next c hc => cases h; exact .inl ⟨c, hc, rfl⟩
    · next i hi => exact .inr ⟨i, hi, h⟩

/-- A Running core whose fetch fails raises the fault of the fetch. -/
theorem step_of_fetch_error {s : State} {c : Cause} (hr : s.run = .running) (h : fetchInstr s = .error c) :
    step s = .next (s.raised c) := by
  simp [step, hr, h, raise]

/-- A Running core whose fetch succeeds runs the instruction. -/
theorem step_of_fetch_ok {s : State} {i : Instr} (hr : s.run = .running) (h : fetchInstr s = .ok i) :
    step s = exec i s := by
  simp [step, hr, h]

end Sys2Proof.Machine
end

