-- ==== Sys2Proof/Laws/PerInstr.lean ====
section
/-! SUPPORT. Statements about every instruction as syntax, one lemma per constructor. -/

namespace Sys2Proof.Laws.EncodeShape

/-- The encoding of an instruction starts with an opcode of the table, that of its mnemonic, and is as long as the
opcode's bits 7:6 say (R90, R91, R97). -/
def Statement (i : Instr) : Prop :=
  mnemonicOf? (opcodeOf i.mnemonic) = some i.mnemonic ∧ (encode i).length = i.length ∧
  (encode i).head? = some (opcodeOf i.mnemonic)

theorem ldi (a imm : Byte) : Statement (.ldi a imm) := ⟨rfl, lengthOf_ldi.symm, rfl⟩
theorem prn (a : Byte) : Statement (.prn a) := ⟨rfl, lengthOf_prn.symm, rfl⟩
theorem hlt : Statement .hlt := ⟨rfl, lengthOf_hlt.symm, rfl⟩
theorem mul (a b : Byte) : Statement (.mul a b) := ⟨rfl, lengthOf_mul.symm, rfl⟩
theorem push (a : Byte) : Statement (.push a) := ⟨rfl, lengthOf_push.symm, rfl⟩
theorem pop (a : Byte) : Statement (.pop a) := ⟨rfl, lengthOf_pop.symm, rfl⟩
theorem call (a : Byte) : Statement (.call a) := ⟨rfl, lengthOf_call.symm, rfl⟩
theorem ret : Statement .ret := ⟨rfl, lengthOf_ret.symm, rfl⟩
theorem add (a b : Byte) : Statement (.add a b) := ⟨rfl, lengthOf_add.symm, rfl⟩
theorem cmp (a b : Byte) : Statement (.cmp a b) := ⟨rfl, lengthOf_cmp.symm, rfl⟩
theorem jmp (a : Byte) : Statement (.jmp a) := ⟨rfl, lengthOf_jmp.symm, rfl⟩
theorem jne (a : Byte) : Statement (.jne a) := ⟨rfl, lengthOf_jne.symm, rfl⟩
theorem jeq (a : Byte) : Statement (.jeq a) := ⟨rfl, lengthOf_jeq.symm, rfl⟩
theorem and (a b : Byte) : Statement (.and a b) := ⟨rfl, lengthOf_and.symm, rfl⟩
theorem or (a b : Byte) : Statement (.or a b) := ⟨rfl, lengthOf_or.symm, rfl⟩

end Sys2Proof.Laws.EncodeShape
end

