-- ==== Sys2Proof/Tests/Slice0.lean ====
section
/-! SUPPORT. The model's own tests: expected results come from spec/95_test_vectors.md (the vector's id stands in each
comment) or from the encodings of spec/30_encoding.md written out bit by bit; then one witness per statement that has
hypotheses, clause by clause at boundary values. -/

namespace Sys2Proof.Tests

open Sys2Proof.Machine

/-- The next state of an outcome, if it is one. -/
def after : Result → Option State
  | .next t => some t
  | .fault _ => none
  | .refused _ => none

/-- The instruction a decoding answers, if any. -/
def decoded : DecodeResult → Option Instr
  | .ok (i, _) => some i
  | .error _ => none

/-- The reason a decoding refuses, if it does. -/
def rejected : DecodeResult → Option DecodeReject
  | .ok _ => none
  | .error e => some e

/-- The state with bytes placed from its `pc` up. -/
def State.at (s : State) (bytes : List Byte) : State := { s with mem := s.mem.writeBytes s.pc bytes }

/-- The reset state with some registers set. -/
def regs (r0 r1 r4 r7 : Byte) : State :=
  { State.reset with x := { State.reset.x with r0 := r0, r1 := r1, r4 := r4, r7 := r7 } }

/-- A Running state with `pc` and memory given. -/
def at' (pc : Nat) (mem : Memory) : State := { State.reset with pc := pc, mem := mem }

/-- The state after one step from `s` with bytes placed at its `pc`. -/
def run1 (s : State) (bytes : List Byte) : Option State := after (step (State.at s bytes))

/-! ### Well-formedness: each check refuses an ill-formed term -/

theorem test_wf_ldi : Instr.wf (.ldi 8#8 0#8) = false := by decide
theorem test_wf_prn : Instr.wf (.prn 8#8) = false := by decide
theorem test_wf_mul : Instr.wf (.mul 7#8 8#8) = false ∧ Instr.wf (.mul 8#8 7#8) = false := by decide
theorem test_wf_push : Instr.wf (.push 8#8) = false := by decide
theorem test_wf_pop : Instr.wf (.pop 8#8) = false := by decide
theorem test_wf_call : Instr.wf (.call 0x80#8) = false := by decide
theorem test_wf_add : Instr.wf (.add 7#8 8#8) = false ∧ Instr.wf (.add 8#8 7#8) = false := by decide
theorem test_wf_cmp : Instr.wf (.cmp 7#8 8#8) = false ∧ Instr.wf (.cmp 8#8 7#8) = false := by decide
theorem test_wf_jmp : Instr.wf (.jmp 8#8) = false := by decide
theorem test_wf_jne : Instr.wf (.jne 8#8) = false := by decide
theorem test_wf_jeq : Instr.wf (.jeq 8#8) = false := by decide
theorem test_wf_and : Instr.wf (.and 7#8 8#8) = false ∧ Instr.wf (.and 8#8 7#8) = false := by decide
theorem test_wf_or : Instr.wf (.or 7#8 8#8) = false ∧ Instr.wf (.or 8#8 7#8) = false := by decide
/-- The immediate of LDI may be any byte, and register 7 is in range (R22, R95). -/
theorem test_wf_accepts : Instr.wf (.ldi 7#8 0xFF#8) = true ∧ Instr.wf .hlt = true ∧ Instr.wf .ret = true := by decide

/-! ### Decoding: words written out bit by bit from the binary column of R97 -/

theorem test_decode_ldi : decoded (decode [0b10000010#8, 0b00000011#8, 0b11111111#8]) = some (.ldi 3#8 255#8) := by decide
theorem test_decode_prn : decoded (decode [0b01000111#8, 0b00000111#8]) = some (.prn 7#8) := by decide
theorem test_decode_hlt : decoded (decode [0b00000001#8]) = some .hlt := by decide
theorem test_decode_mul : decoded (decode [0b10100010#8, 0b00000001#8, 0b00000010#8]) = some (.mul 1#8 2#8) := by decide
theorem test_decode_push : decoded (decode [0b01000101#8, 0b00000101#8]) = some (.push 5#8) := by decide
theorem test_decode_pop : decoded (decode [0b01000110#8, 0b00000110#8]) = some (.pop 6#8) := by decide
theorem test_decode_call : decoded (decode [0b01010000#8, 0b00000001#8]) = some (.call 1#8) := by decide
theorem test_decode_ret : decoded (decode [0b00010001#8]) = some .ret := by decide
theorem test_decode_add : decoded (decode [0b10100000#8, 0b00000100#8, 0b00000001#8]) = some (.add 4#8 1#8) := by decide
theorem test_decode_cmp : decoded (decode [0b10100111#8, 0b00000001#8, 0b00000011#8]) = some (.cmp 1#8 3#8) := by decide
theorem test_decode_jmp : decoded (decode [0b01010100#8, 0b00000100#8]) = some (.jmp 4#8) := by decide
theorem test_decode_jne : decoded (decode [0b01010110#8, 0b00000010#8]) = some (.jne 2#8) := by decide
theorem test_decode_jeq : decoded (decode [0b01010101#8, 0b00000011#8]) = some (.jeq 3#8) := by decide
theorem test_decode_and : decoded (decode [0b10101000#8, 0b00000010#8, 0b00000101#8]) = some (.and 2#8 5#8) := by decide
theorem test_decode_or : decoded (decode [0b10101010#8, 0b00000010#8, 0b00000001#8]) = some (.or 2#8 1#8) := by decide

/-- V-D1 to V-D8: bytes next to legal opcodes are refused by name. -/
theorem test_decode_refuses :
    [0x00#8, 0x02#8, 0x81#8, 0xA1#8, 0xC1#8, 0xFF#8, 0x57#8, 0xA9#8].all
      (fun op => rejected (decode [op, 0#8, 0#8]) == some (.unknownOpcode op)) = true := by decide

/-- The encoder gives the bytes of program P1 (part 3 of 95_test_vectors.md). -/
theorem test_encode_p1 :
    [Instr.ldi 0#8 8#8, .ldi 1#8 9#8, .mul 0#8 1#8, .prn 0#8, .hlt].flatMap encode =
      [0x82#8, 0x00#8, 0x08#8, 0x82#8, 0x01#8, 0x09#8, 0xA2#8, 0x00#8, 0x01#8, 0x47#8, 0x00#8, 0x01#8] := by decide

/-- The host's numbering: bit 0 is the least significant bit of the opcode byte; bits above nbits are zero. -/
theorem test_table_word :
    decodeTableWord 24 0x2A0182 = some (.ldi 1#8 0x2A#8) ∧ decodeTableWord 8 0x77A0 = some (.add 0#8 0#8) ∧
    decodeTableWord 16 0x0000 = none := by decide

/-! ### One step per instruction -/

/-- V-L2: LDI may load the stack pointer. -/
theorem test_ldi_sp : (run1 State.reset [0x82#8, 0x07#8, 0x40#8]).map (fun t => (t.x.r7, t.pc)) = some (0x40#8, 3) := by decide
/-- V-L4: an index above 7 faults and nothing changes. -/
theorem test_ldi_index : (run1 State.reset [0x82#8, 0x08#8, 0x01#8]).map (fun t => (t.run, t.pc, t.x)) =
    some (.faulted (.outOfBounds .regIndex 8), 0, State.reset.x) := by decide
/-- V-P2: PRN R7 prints the stack pointer. -/
theorem test_prn_sp : (run1 State.reset [0x47#8, 0x07#8]).map (fun t => (t.out, t.pc)) = some ([243#8], 2) := by decide
/-- V-P4: a PRN that faults prints nothing. -/
theorem test_prn_index : (run1 State.reset [0x47#8, 0x0A#8]).map (fun t => (t.run, t.out)) =
    some (.faulted (.outOfBounds .regIndex 10), []) := by decide
/-- V-H2: HLT in the last byte of memory is legal. -/
theorem test_hlt_last : (run1 { State.reset with pc := 255 } [0x01#8]).map (fun t => (t.run, t.pc)) = some (.halted, 255) := by decide
/-- V-A3: ADD wraps. -/
theorem test_add_wraps : (run1 (regs 200#8 100#8 0#8 0xF3#8) [0xA0#8, 0#8, 1#8]).map (fun t => (t.x.r0, t.x.r1, t.pc)) =
    some (44#8, 100#8, 3) := by decide
/-- V-A8: ADD with one register for both operands. -/
theorem test_add_self : (run1 (regs 0x90#8 0#8 0#8 0xF3#8) [0xA0#8, 0#8, 0#8]).map (fun t => t.x.r0) = some 0x20#8 := by decide
/-- V-M4: MUL keeps the low byte. -/
theorem test_mul_low : (run1 (regs 100#8 3#8 0#8 0xF3#8) [0xA2#8, 0#8, 1#8]).map (fun t => (t.x.r0, t.fl)) = some (44#8, 0#8) := by decide
/-- V-M3: 255 times 255. -/
theorem test_mul_max : (run1 (regs 255#8 255#8 0#8 0xF3#8) [0xA2#8, 0#8, 1#8]).map (fun t => t.x.r0) = some 1#8 := by decide
/-- V-N1. -/
theorem test_and : (run1 (regs 0xCC#8 0xAA#8 0#8 0xF3#8) [0xA8#8, 0#8, 1#8]).map (fun t => t.x.r0) = some 0x88#8 := by decide
/-- V-O1. -/
theorem test_or : (run1 (regs 0xCC#8 0xAA#8 0#8 0xF3#8) [0xAA#8, 0#8, 1#8]).map (fun t => t.x.r0) = some 0xEE#8 := by decide
/-- V-C6: an unsigned compare. -/
theorem test_cmp_unsigned : (run1 (regs 0x80#8 0x7F#8 0#8 0xF3#8) [0xA7#8, 0#8, 1#8]).map (fun t => t.fl) = some 0x02#8 := by decide
/-- V-C3. -/
theorem test_cmp_less : (run1 (regs 5#8 6#8 0#8 0xF3#8) [0xA7#8, 0#8, 1#8]).map (fun t => (t.fl, t.x.r0)) = some (0x04#8, 5#8) := by decide
/-- V-ST3: PUSH R7 stores the decremented stack pointer. -/
theorem test_push_sp : (run1 State.reset [0x45#8, 0x07#8]).map (fun t => (t.x.r7, t.mem.read 0xF2, t.pc)) =
    some (0xF2#8, 0xF2#8, 2) := by decide
/-- V-ST7: PUSH at 0 faults and changes nothing. -/
theorem test_push_zero : (run1 (regs 1#8 0#8 0#8 0#8) [0x45#8, 0x00#8]).map (fun t => (t.run, t.x.r7, t.mem.read 255)) =
    some (.faulted (.outOfBounds .stackPointer (-1)), 0#8, 0#8) := by decide
/-- V-ST4: POP R7 leaves the popped byte plus one. -/
theorem test_pop_sp : (run1 { regs 0#8 0#8 0#8 0xF2#8 with mem := [(0xF2, 0x41#8)] } [0x46#8, 0x07#8]).map (fun t => t.x.r7) =
    some 0x42#8 := by decide
/-- V-ST10: POP R7 popping 255 faults. -/
theorem test_pop_sp_over : (run1 { regs 0#8 0#8 0#8 0x80#8 with mem := [(0x80, 0xFF#8)] } [0x46#8, 0x07#8]).map
    (fun t => (t.run, t.x.r7)) = some (.faulted (.outOfBounds .stackPointer 256), 0x80#8) := by decide
/-- V-K3: CALL R7 jumps to the decremented stack pointer. -/
theorem test_call_sp : (run1 State.reset [0x50#8, 0x07#8]).map (fun t => (t.x.r7, t.mem.read 0xF2, t.pc)) =
    some (0xF2#8, 0x02#8, 0xF2) := by decide
/-- V-K7: the return address 256 faults and changes nothing. -/
theorem test_call_end : (run1 { State.reset with pc := 254 } [0x50#8, 0x00#8]).map (fun t => (t.run, t.x.r7, t.pc)) =
    some (.faulted (.outOfBounds .returnAddress 256), 0xF3#8, 254) := by decide
/-- V-K2. -/
theorem test_ret : (run1 { regs 0#8 0#8 0#8 0xF2#8 with mem := [(0xF2, 0x08#8)], pc := 0x15 } [0x11#8]).map
    (fun t => (t.pc, t.x.r7)) = some (0x08, 0xF3#8) := by decide
/-- V-K5. -/
theorem test_ret_over : (run1 (regs 0#8 0#8 0#8 0xFF#8) [0x11#8]).map (fun t => (t.run, t.x.r7)) =
    some (.faulted (.outOfBounds .stackPointer 256), 0xFF#8) := by decide
/-- V-J1. -/
theorem test_jmp : (run1 { regs 0#8 0#8 0x0F#8 0xF3#8 with pc := 0x18 } [0x54#8, 4#8]).map (fun t => t.pc) = some 0x0F := by decide
/-- V-J3: JEQ not taken. -/
theorem test_jeq_not_taken : (run1 { State.reset with fl := 0x04#8, pc := 0x15 } [0x55#8, 3#8]).map (fun t => t.pc) = some 0x17 := by decide
/-- V-J8: JEQ not taken does not check its register index. -/
theorem test_jeq_index : (run1 State.reset [0x55#8, 9#8]).map (fun t => (t.run, t.pc)) = some (.running, 2) := by decide
/-- V-J4: JNE taken. -/
theorem test_jne_taken : (run1 { regs 0#8 0#8 0x0F#8 0xF3#8 with fl := 0x02#8, pc := 0x18 } [0x56#8, 4#8]).map (fun t => t.pc) =
    some 0x0F := by decide
/-- V-J9: JNE taken checks its register index. -/
theorem test_jne_index : (run1 State.reset [0x56#8, 9#8]).map (fun t => (t.run, t.pc)) =
    some (.faulted (.outOfBounds .regIndex 9), 0) := by decide

/-! ### The end of memory, fetch, load, output -/

/-- V-E1: the last instruction completes with pc = 256, and the next fetch faults. -/
theorem test_end_completes : (run1 { State.reset with pc := 254 } [0x47#8, 0#8]).map
    (fun t => (t.out, t.pc, (after (step t)).map State.run)) =
    some ([0#8], 256, some (.faulted (.outOfBounds .fetch 256))) := by decide
/-- V-E2: the operand of a two-byte instruction at 255 is missing. -/
theorem test_end_operand_a : (run1 { State.reset with pc := 255 } [0x47#8]).map (fun t => (t.run, t.out)) =
    some (.faulted (.outOfBounds .operand 256), []) := by decide
/-- V-E3: the second operand of a three-byte instruction at 254 is missing. -/
theorem test_end_operand_b : (run1 { State.reset with pc := 254 } [0x82#8, 0#8]).map (fun t => (t.run, t.pc)) =
    some (.faulted (.outOfBounds .operand 256), 254) := by decide
/-- V-R1 and S2: the empty image meets DecodeError(0x00) at once. -/
theorem test_empty_image : (after (step State.reset)).map (fun t => (t.run, t.pc)) = some (.faulted (.decodeError 0x00#8), 0) := by decide
/-- S8: a comment line and a blank line of the text image yield no byte. -/
theorem test_load_text :
    (match loadText "# just a comment\n10000010 # LDI R0,8\n00000000\n00001000\n\n00000001 # HLT\n".toList with
      | .ok s => s.mem
      | .error _ => []) = [(0, 0x82#8), (2, 0x08#8), (3, 0x01#8)] := by decide
/-- S1: the output value 72 is shown as the line 72. -/
theorem test_render : renderOutput [72#8] = ['7', '2', '\n'] := by decide
/-- `withFetchWord` places LDI R1,42 where the step fetches. -/
theorem test_fetch_word : (after (step (State.reset.withFetchWord 24 0x2A0182))).map (fun t => (t.x.r1, t.pc)) = some (42#8, 3) := by decide

/-- The RegIndex row of R212 takes neither LDI's immediate, nor the operand of a JEQ that is not taken, nor operand b
behind an operand a above 7, nor a byte after an illegal opcode. -/
theorem test_cause_fits_refuses :
    causeFits (at' 0 [(0, 0x82#8), (2, 9#8)]) (.outOfBounds .regIndex 9) = false ∧
    causeFits (at' 0 [(0, 0x55#8), (1, 9#8)]) (.outOfBounds .regIndex 9) = false ∧
    causeFits (at' 0 [(0, 0xA0#8), (1, 8#8), (2, 9#8)]) (.outOfBounds .regIndex 9) = false ∧
    causeFits (at' 0 [(0, 0x57#8), (1, 9#8)]) (.outOfBounds .regIndex 9) = false := by decide

/-! ### Witnesses: for each statement of Obligations.lean that has hypotheses, a state and operands that meet them, each
clause at a boundary value -/

theorem witness_ResetLeavesTheTabledValues : Reg.r6 ≠ Reg.r7 := by decide

theorem witness_ExecutionStartsAtAddressZero :
    loadImage [0x82] = .ok { State.reset with mem := [(0, 0x82#8)] } ∧ [0x82].head? = some 0x82 := ⟨rfl, rfl⟩

theorem witness_LoadPlacesTheImageFromAddressZero :
    ((List.replicate 256 255).length ≤ 256 ∧ (∀ v ∈ List.replicate 256 255, v ≤ 255) ∧
      (List.replicate 256 255)[255]? = some 255) ∧
    (([] : List Nat).length ≤ 256 ∧ ([] : List Nat).length ≤ 0) :=
  ⟨⟨le_of_eq List.length_replicate, fun _ hv => le_of_eq (List.eq_of_mem_replicate hv),
    List.getElem?_replicate_of_lt (by decide)⟩, by decide⟩

theorem witness_LoadRefusesOtherImages :
    256 < (List.replicate 257 0).length ∧ ∃ v ∈ [256], 255 < v :=
  ⟨Nat.lt_of_lt_of_eq (by decide) List.length_replicate.symm, by decide⟩

theorem witness_CommentAndBlankLinesYieldNoByte : [' ', '\t', '\r', '\n'].all isSpace = true ∧ [].all isSpace = true := by decide

theorem witness_LengthIsTheTopBitsPlusOne :
    mnemonicOf? 0xAA#8 = some .or ∧ decode [0xAA#8, 2#8, 1#8] = .ok (.or 2#8 1#8, []) ∧ (0xC0#8).toNat / 64 = 3 ∧
    (0xFF#8).toNat / 64 = 3 := ⟨rfl, rfl, rfl, rfl⟩

theorem witness_RegisterByteIsTheWholeIndex : (7#8).toNat ≤ 7 ∧ 7 < (8#8).toNat ∧ 7 < (0xFF#8).toNat ∧
    Instr.jmp 8#8 ∈ [Instr.prn 8#8, .jmp 8#8] ∧ Instr.or (regByte .r7) 8#8 ∈ [Instr.or (regByte .r7) 8#8] := by decide

theorem witness_StepRunsTheDecodedInstruction :
    (at' 255 [(255, 0x01#8)]).run = .running ∧ decode (fetchWindow (at' 255 [(255, 0x01#8)])) = .ok (.hlt, []) :=
  ⟨rfl, rfl⟩

theorem witness_StepRunsTheInstructionInMemory :
    (at' 255 [(255, 0x11#8)]).run = .running ∧ (at' 255 [(255, 0x11#8)]).pc + Instr.length .ret ≤ 256 ∧
    ∀ k v, (encode .ret)[k]? = some v → (at' 255 [(255, 0x11#8)]).mem.read ((at' 255 [(255, 0x11#8)]).pc + k) = v := by
  refine ⟨rfl, by decide, fun k v h => ?_⟩
  cases k with
  | zero => simp only [encode, Instr.operandBytes, List.getElem?_cons_zero, Option.some.injEq] at h; rw [← h]; rfl
  | succ k => simp [encode, Instr.operandBytes] at h

theorem witness_FetchWordRunsNext :
    (at' 253 []).mem.wf ∧ (at' 253 []).run = .running ∧ (at' 253 []).pc ≤ 253 ∧
    decodeTableWord 24 0xFF0782 = some (.ldi 7#8 0xFF#8) := by decide

theorem witness_FetchPastTheEndRaises :
    (at' 255 []).pc ≤ 255 ∧ (at' 256 []).run = .running ∧ (at' 256 []).pc = 256 := by decide

theorem witness_EveryOtherOpcodeRaisesDecodeError :
    (at' 255 []).run = .running ∧ (at' 255 []).pc ≤ 255 ∧
    (at' 255 []).mem.read (at' 255 []).pc ∉ [0x01#8, 0x11#8, 0x45#8, 0x46#8, 0x47#8, 0x50#8, 0x54#8, 0x55#8, 0x56#8, 0x82#8,
      0xA0#8, 0xA2#8, 0xA7#8, 0xA8#8, 0xAA#8] ∧ 0xC0 ≤ (0xC0#8).toNat := by decide

theorem witness_OperandAboveTheEndRaises :
    ((at' 255 [(255, 0x47#8)]).run = .running ∧ mnemonicOf? ((at' 255 [(255, 0x47#8)]).mem.read 255) = some .prn ∧
      2 ≤ lengthOf .prn) ∧
    ((at' 254 [(254, 0x82#8)]).run = .running ∧ mnemonicOf? ((at' 254 [(254, 0x82#8)]).mem.read 254) = some .ldi ∧
      lengthOf .ldi = 3) ∧
    ((at' 253 [(253, 0x82#8)]).run = .running ∧ mnemonicOf? ((at' 253 [(253, 0x82#8)]).mem.read 253) = some .ldi ∧
      253 + lengthOf .ldi ≤ 256) := by decide

theorem witness_StoppedCoreHasNoStep :
    { State.reset with run := .halted }.run = .halted ∧
    { State.reset with run := .faulted (.decodeError 0#8) }.run = .faulted (.decodeError 0#8) := by decide

theorem witness_RunningCoreHasExactlyOneNextState :
    State.reset.run = .running ∧ step State.reset = .next { State.reset with run := .faulted (.decodeError 0#8) } ∧
    { State.reset with run := .faulted (.decodeError 0#8) }.run = .faulted (.decodeError 0#8) := ⟨rfl, rfl, rfl⟩

theorem witness_OnlyHltStopsCleanly :
    State.reset.run = .running ∧ exec .hlt State.reset = .next { State.reset with run := .halted } ∧
    exec (.jmp 7#8) State.reset = .next { State.reset with pc := 243 } ∧ Instr.jmp 7#8 ≠ .hlt :=
  ⟨rfl, rfl, rfl, by decide⟩

/-- LDI at 253 reaches 256 (V-E4), JEQ and JNE not taken at 254 do too. -/
theorem witness_DefaultAdvanceIsExact :
    (let s : State := at' 253 [(253, 0x82#8), (255, 0x2A#8)];
      s.run = .running ∧ fetchInstr s = .ok (.ldi 0#8 0x2A#8) ∧
      exec (.ldi 0#8 0x2A#8) s = .next { s with x := s.x.set .r0 0x2A#8, pc := 256 } ∧
      (Instr.ldi 0#8 0x2A#8).mnemonic = .ldi) ∧
    (let s : State := at' 254 [(254, 0x55#8)];
      s.run = .running ∧ fetchInstr s = .ok (.jeq 0#8) ∧ exec (.jeq 0#8) s = .next { s with pc := 256 } ∧
      s.fl.getLsbD 0 = false) ∧
    (let s : State := { at' 254 [(254, 0x56#8)] with fl := 1#8 };
      s.run = .running ∧ fetchInstr s = .ok (.jne 0#8) ∧ exec (.jne 0#8) s = .next { s with pc := 256 } ∧
      s.fl.getLsbD 0 = true) :=
  ⟨⟨rfl, rfl, rfl, rfl⟩, ⟨rfl, rfl, rfl, rfl⟩, ⟨rfl, rfl, rfl, rfl⟩⟩

theorem witness_RedirectSetsPcToAByte :
    ((regs 0#8 0#8 0#8 1#8).x.get .r7 ≠ 0#8 ∧ { regs 0#8 0#8 0#8 1#8 with pc := 253 }.pc ≤ 253) ∧
    (regs 0#8 0#8 0#8 0xFE#8).x.get .r7 ≠ 0xFF#8 ∧ { State.reset with fl := 0x01#8 }.fl.getLsbD 0 = true ∧
    State.reset.fl.getLsbD 0 = false := by decide

theorem witness_StepKeepsInvariant :
    { at' 256 [(255, 1#8)] with fl := 4#8 }.Inv ∧
    step { at' 256 [(255, 1#8)] with fl := 4#8 } =
      .next { at' 256 [(255, 1#8)] with fl := 4#8, run := .faulted (.outOfBounds .fetch 256) } := ⟨by decide, rfl⟩

theorem witness_LoadedStateMeetsInvariant :
    loadImage [0, 255] = .ok { State.reset with mem := [(1, 255#8)] } := rfl

theorem witness_EveryStopIsExplained :
    ((at' 255 [(255, 1#8)]).Inv ∧ (at' 255 [(255, 1#8)]).run = .running ∧
      step (at' 255 [(255, 1#8)]) = .next { at' 255 [(255, 1#8)] with run := .halted }) ∧
    ((at' 0 [(0, 0x56#8), (1, 8#8)]).Inv ∧ (at' 0 [(0, 0x56#8), (1, 8#8)]).run = .running ∧
      step (at' 0 [(0, 0x56#8), (1, 8#8)]) =
        .next { at' 0 [(0, 0x56#8), (1, 8#8)] with run := .faulted (.outOfBounds .regIndex 8) }) :=
  ⟨⟨by decide, by decide, rfl⟩, ⟨by decide, by decide, rfl⟩⟩

theorem witness_CanonicalMemoriesThatReadAlikeAreEqual :
    Memory.wf [(0, 1#8), (255, 255#8)] ∧
    ∀ a, a < 256 → Memory.read [(0, 1#8), (255, 255#8)] a = Memory.read (Memory.writeBytes (Memory.write [] 255 255#8) 0 [1#8]) a :=
  ⟨by decide, fun _ _ => rfl⟩

theorem witness_FlagsBeyondEqualAreUnobservable :
    (0xFE#8 : Byte).getLsbD 0 = State.reset.fl.getLsbD 0 ∧
    Host.Core.run Sys2Proof.core 1 State.reset = .next { State.reset with run := .faulted (.decodeError 0#8) } := ⟨rfl, rfl⟩

theorem witness_FirstFailingCheckDecides :
    firstFault (regs 0#8 0#8 0#8 0#8) (.call 8#8) = some (.outOfBounds .regIndex 8) ∧
    firstFault { regs 0#8 0#8 0#8 0#8 with pc := 254 } (.call 7#8) = some (.outOfBounds .stackPointer (-1)) ∧
    firstFault { regs 0#8 0#8 0#8 1#8 with pc := 254 } (.call 7#8) = some (.outOfBounds .returnAddress 256) ∧
    firstFault { regs 0#8 0#8 0#8 1#8 with pc := 253 } (.call 7#8) = none := by decide

theorem witness_WellFormedInstructionsPassTheIndexCheck :
    Instr.wf (.jmp 7#8) = true ∧ State.reset.run = .running ∧
    exec (.jmp 7#8) State.reset = .next { State.reset with pc := 243 } := ⟨rfl, rfl, rfl⟩

theorem witness_RegistersChangeOnlyWhereNamed :
    exec (.jmp 7#8) State.reset = .next { State.reset with pc := 243 } ∧
    (exec (.ldi 0#8 0#8) State.reset = .next { State.reset with pc := 3 } ∧ regByte .r7 ≠ 0#8) ∧
    (exec .ret (regs 0#8 0#8 0#8 0xFE#8) = .next (regs 0#8 0#8 0#8 0xFF#8) ∧ Reg.r6 ≠ Reg.r7) ∧
    (exec (.pop 0#8) (regs 1#8 0#8 0#8 0xFE#8) = .next { regs 0#8 0#8 0#8 0xFF#8 with pc := 2 } ∧ regByte .r1 ≠ 0#8 ∧
      Reg.r1 ≠ Reg.r7) :=
  ⟨rfl, ⟨rfl, by decide⟩, ⟨rfl, by decide⟩, rfl, by decide, by decide⟩

theorem witness_OnlyCmpWritesFlags :
    (exec (.jmp 7#8) State.reset = .next { State.reset with pc := 243 } ∧ (Instr.jmp 7#8).mnemonic ≠ .cmp) ∧
    (exec (.cmp 7#8 7#8) State.reset = .next { State.reset with fl := 1#8, pc := 3 } ∧ (Instr.cmp 7#8 7#8).mnemonic = .cmp) :=
  ⟨⟨rfl, by decide⟩, ⟨rfl, rfl⟩⟩

theorem witness_RunStateChangesOnlyByHltOrFault :
    exec .hlt State.reset = .next { State.reset with run := .halted } := rfl

theorem witness_NonStoringFormsLeaveMemory :
    (Instr.jmp 7#8).mnemonic ≠ .push ∧ (Instr.jmp 7#8).mnemonic ≠ .call ∧
    exec (.jmp 7#8) State.reset = .next { State.reset with pc := 243 } := ⟨by decide, by decide, rfl⟩

theorem witness_StoringFormsChangeOnlyTheStackSlot :
    (spDec (regs 0#8 0#8 0#8 1#8) = .ok 0#8 ∧
      exec (.push 0#8) (regs 0#8 0#8 0#8 1#8) = .next { regs 0#8 0#8 0#8 0#8 with pc := 2 }) ∧
    (spDec (regs 0#8 0#8 0#8 0#8) = .error (.outOfBounds .stackPointer (-1)) ∧
      exec (.call 0#8) (regs 0#8 0#8 0#8 0#8) =
        .next { regs 0#8 0#8 0#8 0#8 with run := .faulted (.outOfBounds .stackPointer (-1)) }) :=
  ⟨⟨rfl, rfl⟩, ⟨rfl, rfl⟩⟩

theorem witness_LdiLoadsTheImmediate :
    7 < (8#8).toNat ∧ ((at' 254 [(254, 0x82#8)]).run = .running ∧ (at' 254 [(254, 0x82#8)]).mem.read 254 = 0x82#8) ∧
    ((at' 255 [(255, 0x82#8)]).run = .running ∧ (at' 255 [(255, 0x82#8)]).mem.read 255 = 0x82#8) := by decide

theorem witness_PrnAppendsTheRegister :
    7 < (8#8).toNat ∧ ((at' 255 [(255, 0x47#8)]).run = .running ∧ (at' 255 [(255, 0x47#8)]).mem.read 255 = 0x47#8) ∧
    ((at' 254 []).run = .running ∧ (at' 254 []).pc = 254) ∧
    (Instr.jmp 7#8).mnemonic ≠ .prn ∧ exec (.jmp 7#8) State.reset = .next { State.reset with pc := 243 } :=
  ⟨by decide, by decide, by decide, by decide, rfl⟩

theorem witness_AddIsModulo256 : 7 < (8#8).toNat ∧ 7 < (0xFF#8).toNat := by decide

theorem witness_MulKeepsTheLowByte : 7 < (8#8).toNat ∧ 7 < (0xFF#8).toNat := by decide

theorem witness_AndIsBitwise :
    7 < (8#8).toNat ∧ ((at' 254 [(254, 0xA8#8)]).run = .running ∧ (at' 254 [(254, 0xA8#8)]).mem.read 254 = 0xA8#8) ∧
    ((at' 255 [(255, 0xA8#8)]).run = .running ∧ (at' 255 [(255, 0xA8#8)]).mem.read 255 = 0xA8#8) := by decide

theorem witness_OrIsBitwise :
    7 < (8#8).toNat ∧ ((at' 254 [(254, 0xAA#8)]).run = .running ∧ (at' 254 [(254, 0xAA#8)]).mem.read 254 = 0xAA#8) ∧
    ((at' 255 [(255, 0xAA#8)]).run = .running ∧ (at' 255 [(255, 0xAA#8)]).mem.read 255 = 0xAA#8) := by decide

theorem witness_CmpSetsExactlyOneFlag :
    (regs 5#8 5#8 0#8 0#8).x.r0.toNat = (regs 5#8 5#8 0#8 0#8).x.r1.toNat ∧
    (regs 0x80#8 0x7F#8 0#8 0#8).x.r1.toNat < (regs 0x80#8 0x7F#8 0#8 0#8).x.r0.toNat ∧
    (regs 0#8 255#8 0#8 0#8).x.r0.toNat < (regs 0#8 255#8 0#8 0#8).x.r1.toNat ∧ 7 < (8#8).toNat := by decide

theorem witness_PushStoresBelowTheStackPointer :
    (regs 0#8 0#8 0#8 1#8).x.get .r7 ≠ 0#8 ∧ (regs 0#8 0#8 0#8 0#8).x.get .r7 = 0#8 ∧ 7 < (8#8).toNat := by decide

theorem witness_PopLoadsAtTheStackPointer :
    (Reg.r6 ≠ .r7 ∧ (regs 0#8 0#8 0#8 0xFE#8).x.get .r7 ≠ 0xFF#8) ∧
    ({ regs 0#8 0#8 0#8 0xFF#8 with mem := [(255, 0xFE#8)] }).mem.read 0xFF ≠ 0xFF#8 ∧
    (regs 0#8 0#8 0#8 0xFF#8).x.get .r7 = 0xFF#8 ∧
    ({ regs 0#8 0#8 0#8 0x80#8 with mem := [(0x80, 0xFF#8)] }).mem.read 0x80 = 0xFF#8 ∧ 7 < (8#8).toNat := by decide

theorem witness_PushThenPopRestoresTheRegisters :
    (regs 0#8 0#8 0#8 1#8).mem.wf ∧ (regs 0#8 0#8 0#8 1#8).x.get .r7 ≠ 0#8 := by decide

theorem witness_PushesAndPopsNest :
    (regs 0#8 0#8 0#8 2#8).mem.wf ∧ Reg.r0 ≠ .r7 ∧ Reg.r1 ≠ .r7 ∧ Reg.r0 ≠ Reg.r1 ∧
    2 ≤ ((regs 0#8 0#8 0#8 2#8).x.get .r7).toNat := by decide

/-- PUSH to 254, seen as the immediate of a LDI at 252; CALL to 0, seen as an opcode. -/
theorem witness_StoredByteIsSeenByTheNextFetch :
    (let s : State := regs 9#8 0#8 0#8 0xFF#8;
      let t : State := { s with x := s.x.set .r7 0xFE#8, mem := [(254, 9#8)], pc := 2 };
      let u : State := { t with mem := [(252, 0x82#8), (254, 9#8)], pc := 252 };
      s.mem.wf ∧ spDec s = .ok 0xFE#8 ∧ t.run = .running ∧ exec (.push (regByte .r0)) s = .next t ∧ t.x.get .r0 = 9#8 ∧
      u.mem.read 254 = t.mem.read 254 ∧ u.pc + 2 = 254 ∧ fetchInstr u = .ok (.ldi 0#8 9#8) ∧
      2 < (Instr.ldi 0#8 9#8).length) ∧
    (let s : State := { regs 0#8 0#8 0#8 1#8 with pc := 15 };
      let t : State := { s with x := s.x.set .r7 0#8, mem := [(0, 0x11#8)], pc := 0 };
      s.mem.wf ∧ spDec s = .ok 0#8 ∧ t.run = .running ∧ exec (.call (regByte .r0)) s = .next t ∧
      0x11#8 = BitVec.ofNat 8 (s.pc + 2) ∧ t.pc + 0 = 0 ∧ fetchInstr t = .ok .ret ∧ 0 < Instr.length .ret) :=
  ⟨⟨by decide, rfl, rfl, rfl, rfl, rfl, rfl, rfl, by decide⟩, ⟨by decide, rfl, rfl, rfl, rfl, rfl, rfl, by decide⟩⟩

theorem witness_JmpGoesToTheRegister :
    7 < (8#8).toNat ∧ (at' 255 [(255, 0x54#8)]).run = .running ∧ (at' 255 [(255, 0x54#8)]).mem.read 255 = 0x54#8 := by decide

theorem witness_JeqJumpsWhenEqualIsSet :
    { State.reset with fl := 0x01#8 }.fl.getLsbD 0 = true ∧ 7 < (8#8).toNat ∧
    { State.reset with fl := 0x06#8 }.fl.getLsbD 0 = false ∧
    (at' 255 [(255, 0x55#8)]).run = .running ∧ (at' 255 [(255, 0x55#8)]).mem.read 255 = 0x55#8 ∧
    State.reset.x.get .r0 = State.reset.x.get .r6 ∧
    exec (.cmp (regByte .r0) (regByte .r6)) State.reset = .next { State.reset with fl := 1#8, pc := 3 } :=
  ⟨by decide, by decide, by decide, by decide, by decide, by decide, rfl⟩

theorem witness_JneJumpsWhenEqualIsClear :
    { State.reset with fl := 0x01#8 }.fl.getLsbD 0 = true ∧ 7 < (8#8).toNat ∧
    { State.reset with fl := 0x06#8 }.fl.getLsbD 0 = false ∧
    (at' 255 [(255, 0x56#8)]).run = .running ∧ (at' 255 [(255, 0x56#8)]).mem.read 255 = 0x56#8 ∧
    State.reset.x.get .r0 = State.reset.x.get .r6 ∧
    exec (.cmp (regByte .r0) (regByte .r6)) State.reset = .next { State.reset with fl := 1#8, pc := 3 } :=
  ⟨by decide, by decide, by decide, by decide, by decide, by decide, rfl⟩

theorem witness_CallPushesTheReturnAddress :
    ((regs 0#8 0#8 0#8 1#8).x.get .r7 ≠ 0#8 ∧ (at' 253 []).pc + 2 ≤ 255 ∧ (at' 253 []).x.get .r7 ≠ 0#8) ∧
    (regs 0#8 0#8 0#8 0#8).x.get .r7 = 0#8 ∧ ((at' 254 []).x.get .r7 ≠ 0#8 ∧ (at' 254 []).pc = 254) ∧
    7 < (8#8).toNat := by decide

theorem witness_RetGoesToThePoppedByte :
    (regs 0#8 0#8 0#8 0xFE#8).x.get .r7 ≠ 0xFF#8 ∧ (regs 0#8 0#8 0#8 0xFF#8).x.get .r7 = 0xFF#8 := by decide

theorem witness_CallThenRetReturns :
    ({ regs 0#8 0#8 0#8 1#8 with pc := 253 }).mem.wf ∧ ({ regs 0#8 0#8 0#8 1#8 with pc := 253 }).x.get .r7 ≠ 0#8 ∧
    ({ regs 0#8 0#8 0#8 1#8 with pc := 253 }).pc + 2 ≤ 255 := by decide

theorem witness_HltStopsInPlace :
    (at' 255 [(255, 0x01#8)]).run = .running ∧ (at' 255 [(255, 0x01#8)]).pc ≤ 255 ∧
    (at' 255 [(255, 0x01#8)]).mem.read 255 = 0x01#8 ∧ { State.reset with run := .halted }.run = .halted := by decide

theorem witness_OutputRendersOneNumeralPerLine : (decimal 0x00#8).head? = some '0' := by decide

end Sys2Proof.Tests
end

/-! PROOFS. The encoding family (spec/30_encoding.md): O15, O7, O8 and O10, and the lemmas they rest on:
which bytes are opcodes, how long an instruction is, what a decoding that answers says about the bytes, and what the
index check of the first operands decides. -/

namespace Sys2Proof

/-! ### The legal opcodes (R97, R99) -/

/-- The 15 opcode bytes of the table, in rising order: the list O7 and O15 write out. -/
def legalOpcodes : List Byte :=
  [0x01#8, 0x11#8, 0x45#8, 0x46#8, 0x47#8, 0x50#8, 0x54#8, 0x55#8, 0x56#8, 0x82#8, 0xA0#8, 0xA2#8, 0xA7#8, 0xA8#8, 0xAA#8]

/-- The opcode of every mnemonic is one of the 15. -/
theorem opcodeOf_mem_legalOpcodes (m : Mnemonic) : opcodeOf m ∈ legalOpcodes := by
  cases m <;> decide

/-- A byte has a mnemonic exactly when it is one of the 15 (R97). -/
theorem mnemonicOf?_ne_none_iff {op : Byte} : mnemonicOf? op ≠ none ↔ op ∈ legalOpcodes := by
  constructor
  · intro h
    obtain ⟨m, hm⟩ := Option.ne_none_iff_exists'.mp h
    rw [mnemonicOf?_eq_some.mp hm]
    exact opcodeOf_mem_legalOpcodes m
  · have rows : ∀ v ∈ legalOpcodes, mnemonicOf? v ≠ none := by decide
    exact rows op

theorem mnemonicOf?_eq_none_iff {op : Byte} : mnemonicOf? op = none ↔ op ∉ legalOpcodes := by
  rw [← mnemonicOf?_ne_none_iff, not_not]

/-- The numbers of the bytes in a list are, in some order, those below 256 whose byte is in it. -/
theorem filter_range_mem_perm {l : List Byte} (h : l.Nodup) :
    ((List.range 256).filter (fun n => decide (BitVec.ofNat 8 n ∈ l))).Perm (l.map BitVec.toNat) := by
  refine (List.perm_ext_iff_of_nodup (List.nodup_range.filter _) (h.map fun _ _ => BitVec.eq_of_toNat_eq)).mpr ?_
  intro n
  simp only [List.mem_filter, List.mem_range, decide_eq_true_eq, List.mem_map]
  constructor
  · rintro ⟨hn, hmem⟩
    exact ⟨_, hmem, by rw [BitVec.toNat_ofNat, Nat.mod_eq_of_lt hn]⟩
  · rintro ⟨v, hmem, rfl⟩
    exact ⟨v.isLt, by rwa [BitVec.ofNat_toNat, BitVec.setWidth_eq]⟩

/-- A list of different bytes leaves out 256 minus its length of the 256 byte values. -/
theorem length_filter_range_notMem {l : List Byte} (h : l.Nodup) :
    ((List.range 256).filter (fun n => decide (BitVec.ofNat 8 n ∉ l))).length = 256 - l.length := by
  have hsplit := List.length_eq_length_filter_add (l := List.range 256) (fun n => decide (BitVec.ofNat 8 n ∈ l))
  rw [(filter_range_mem_perm h).length_eq, List.length_map, List.length_range] at hsplit
  simp only [decide_not]
  omega

/-! ### Lengths (R91) -/

theorem opcodeLength_eq (op : Byte) : opcodeLength op = op.toNat / 64 + 1 := by
  simp [opcodeLength, Nat.shiftRight_eq_div_pow]

theorem lengthOf_le_three (m : Mnemonic) : lengthOf m ≤ 3 := by
  cases m <;> decide

/-- The length an opcode byte gives is the length of its mnemonic. -/
theorem opcodeLength_of_mnemonicOf? {op : Byte} {m : Mnemonic} (h : mnemonicOf? op = some m) :
    opcodeLength op = lengthOf m := by
  rw [mnemonicOf?_eq_some.mp h]; rfl

/-- No opcode of the table has the field value 3: the instruction would have four bytes. -/
theorem mnemonicOf?_eq_none_of_field_three {op : Byte} (h : op.toNat / 64 = 3) : mnemonicOf? op = none := by
  cases hm : mnemonicOf? op with
  | none => rfl
  | some m =>
    have hlen := opcodeLength_of_mnemonicOf? hm
    have hle := lengthOf_le_three m
    rw [opcodeLength_eq] at hlen
    omega

/-- The encoding of an instruction has as many bytes as its opcode says. -/
theorem length_encode (i : Instr) : (encode i).length = i.length := by
  cases i <;> simp [encode, Instr.operandBytes, Instr.length, Instr.mnemonic]

/-! ### What a decoding that answers has read (R90, R92) -/

/-- The decoder answers `i` only for bytes that begin with the encoding of `i`, and leaves the bytes after it. -/
theorem eq_encode_append_of_decode {bytes rest : List Byte} {i : Instr} (h : decode bytes = .ok (i, rest)) :
    bytes = encode i ++ rest := by
  cases bytes with
  | nil => cases h
  | cons op bytes =>
    cases hm : mnemonicOf? op with
    | none => rw [decode_unknown hm] at h; cases h
    | some m =>
      obtain rfl := mnemonicOf?_eq_some.mp hm
      rw [decode_opcodeOf] at h
      obtain ⟨j, tail, hd, rfl, rfl⟩ | ⟨-, -, hd⟩ | ⟨-, -, hd⟩ := decodeOperands_cases m bytes
      · rw [hd] at h; cases h; rfl
      · rw [hd] at h; cases h
      · rw [hd] at h; cases h

end Sys2Proof

namespace Sys2Proof.Machine

/-! ### Fetching a byte that is no opcode (R121, R122) -/

/-- Up to address 255 the decoder is offered the byte at `pc` first (R121). -/
theorem fetchWindow_eq_cons {s : State} (h : s.pc ≤ 255) : ∃ bytes, fetchWindow s = s.mem.read s.pc :: bytes := by
  have hread : s.mem.read? s.pc = some (s.mem.read s.pc) := by
    rw [Memory.read?_eq, if_pos (by omega)]
  exact ⟨_, List.filterMap_cons_some hread⟩

/-- A byte of memory outside the table, fetched as an opcode, is the value of the DecodeError (R99, R211). -/
theorem fetchInstr_of_unknown_opcode {s : State} (hpc : s.pc ≤ 255) (hop : mnemonicOf? (s.mem.read s.pc) = none) :
    fetchInstr s = .error (.decodeError (s.mem.read s.pc)) := by
  obtain ⟨bytes, hw⟩ := fetchWindow_eq_cons hpc
  simp [fetchInstr, hw, decode_unknown hop, rejectCause]

/-! ### The index check as the first check of an instruction (R94, R148) -/

/-- Whatever an instruction would do with the register, a register byte above 7 raises with the whole byte. -/
theorem complete_regIdx_of_gt {b : Byte} (h : 7 < b.toNat) (s : State) (f : Reg → Except Cause State) :
    complete s (regIdx b >>= f) = .next (s.raised (.outOfBounds .regIndex b.toNat)) := by
  rw [regIdx_of_gt h, bind_error, complete_error]

/-- Operand a of an ALU instruction is checked before operand b. -/
theorem aluInstr_of_a_gt {a : Byte} (h : 7 < a.toNat) (op : AluOp) (len : Nat) (b : Byte) (s : State) :
    aluInstr op len a b s = .next (s.raised (.outOfBounds .regIndex a.toNat)) := by
  simp [aluInstr, regPair, regIdx_of_gt h]

theorem aluInstr_of_b_gt {b : Byte} (h : 7 < b.toNat) (op : AluOp) (len : Nat) (r : Reg) (s : State) :
    aluInstr op len (regByte r) b s = .next (s.raised (.outOfBounds .regIndex b.toNat)) := by
  simp [aluInstr, regPair, regIdx_of_gt h]

theorem toNat_regByte_le (r : Reg) : (regByte r).toNat ≤ 7 := by
  cases r <;> decide

end Sys2Proof.Machine

namespace Sys2Proof.Proofs

open Sys2Proof.Machine

/-! ### The obligations -/

/-- Settles O15: the decoder refuses every byte outside the table by name, and the step raises what the fetch refuses;
the 15 opcodes are different bytes, so 241 are left; the bytes from 0xC0 up have the field value 3, which no opcode has. -/
theorem everyOtherOpcodeRaisesDecodeError : Obligations.EveryOtherOpcodeRaisesDecodeError := by
  refine ⟨fun s hrun hpc hop => ?_, length_filter_range_notMem (by decide), by decide, fun op hop => ?_⟩
  · exact step_of_fetch_error hrun (fetchInstr_of_unknown_opcode hpc (mnemonicOf?_eq_none_iff.mpr hop))
  · exact mnemonicOf?_eq_none_iff.mp (mnemonicOf?_eq_none_of_field_three (by omega))

/-- Settles O7: each row is the decoder's answer for the opcode of its mnemonic, computed on the operand bytes. -/
theorem opcodeTableRowsDecode : Obligations.OpcodeTableRowsDecode :=
  ⟨fun _ _ _ =>
    ⟨decode_opcodeOf .ldi _, decode_opcodeOf .prn _, decode_opcodeOf .hlt _, decode_opcodeOf .mul _,
      decode_opcodeOf .push _, decode_opcodeOf .pop _, decode_opcodeOf .call _, decode_opcodeOf .ret _,
      decode_opcodeOf .add _, decode_opcodeOf .cmp _, decode_opcodeOf .jmp _, decode_opcodeOf .jne _,
      decode_opcodeOf .jeq _, decode_opcodeOf .and _, decode_opcodeOf .or _⟩,
    fun _ => mnemonicOf?_ne_none_iff⟩

/-- Settles O8: a decoding that answers has read exactly the encoding of its instruction, whose opcode gives the
length. -/
theorem lengthIsTheTopBitsPlusOne : Obligations.LengthIsTheTopBitsPlusOne := by
  refine ⟨fun op m hm => ⟨opcodeLength_eq op, Nat.le_add_left .., ?_, fun bytes i rest hd => ?_⟩, fun op bytes hop => ?_⟩
  · rw [opcodeLength_of_mnemonicOf? hm]
    exact lengthOf_le_three m
  · have hbytes := eq_encode_append_of_decode hd
    obtain rfl : op = opcodeOf i.mnemonic := List.head_eq_of_cons_eq hbytes
    have hlen : i.length = opcodeLength (opcodeOf i.mnemonic) := rfl
    have htaken := congrArg List.length hbytes
    rw [List.length_cons, List.length_append, length_encode, hlen, Nat.add_comm _ rest.length] at htaken
    exact ⟨hlen, htaken⟩
  · exact decode_unknown (mnemonicOf?_eq_none_of_field_three hop) bytes

/-- Settles O10: the index check is the first check of each of these instructions (operand b's comes second, behind an
operand a in range), and it fails exactly above 7. -/
theorem registerByteIsTheWholeIndex : Obligations.RegisterByteIsTheWholeIndex := by
  refine ⟨fun r => ⟨regIdx_regByte r, toNat_regByte_le r⟩, fun b => exists_regByte,
    rfl, rfl, rfl, rfl, rfl, rfl, rfl, rfl, fun b c s hb => ⟨regIdx_of_gt hb, ?_, fun r => ?_⟩⟩
  · have single := complete_regIdx_of_gt hb s
    have alu := fun op len => aluInstr_of_a_gt hb op len c s
    simp only [List.forall_mem_cons, List.not_mem_nil, false_imp_iff, implies_true, and_true]
    exact ⟨single _, single _, alu _ _, single _, single _, single _, alu _ _, alu _ _, single _, alu _ _, alu _ _⟩
  · have alu := fun op len => aluInstr_of_b_gt hb op len r s
    simp only [List.forall_mem_cons, List.not_mem_nil, false_imp_iff, implies_true, and_true]
    exact ⟨alu _ _, alu _ _, alu _ _, alu _ _, alu _ _⟩

end Sys2Proof.Proofs

/-! PROOFS. The execution cycle (spec/40_execution_cycle.md): O14, O18, O19 and O20, and the lemmas they rest on:
what a fetch that answers says about memory and `pc`, and how every instruction ends. -/

namespace Sys2Proof

/-! ### The default advance and the redirects (R125, R126) -/

/-- The instruction, when it completes, sets `pc` to a target in place of the default advance: JMP, CALL, RET, and JEQ and
JNE when taken (R126). -/
def redirects (fl : Byte) : Mnemonic → Bool
  | .jmp | .call | .ret => true
  | .jeq => Machine.flagE fl
  | .jne => !Machine.flagE fl
  | .ldi | .prn | .hlt | .mul | .push | .pop | .add | .cmp | .and | .or => false

/-- The instructions R125 names are all but HLT and those that redirect. -/
theorem defaultAdvance_iff (fl : Byte) (m : Mnemonic) :
    (m ∈ [Mnemonic.ldi, .prn, .mul, .add, .cmp, .and, .or, .push, .pop] ∨
      (m = .jeq ∧ fl.getLsbD 0 = false) ∨ (m = .jne ∧ fl.getLsbD 0 = true)) ↔
    m ≠ .hlt ∧ redirects fl m = false := by
  cases m <;> simp [redirects, Machine.flagE]

/-- Only HLT and RET are one byte long. -/
theorem two_le_lengthOf {m : Mnemonic} (hhlt : m ≠ .hlt) (hret : m ≠ .ret) : 2 ≤ lengthOf m := by
  cases m <;> simp at hhlt hret ⊢

end Sys2Proof

namespace Sys2Proof.Machine

/-! ### The fetch at the end of memory (R121, R123) -/

theorem fetchWindow_eq_nil {s : State} (h : 255 < s.pc) : fetchWindow s = [] := by
  rw [fetchWindow_eq, if_neg (by omega), if_neg (by omega), if_neg (by omega)]

/-- The fetch window ends at or below address 255. -/
theorem pc_add_length_fetchWindow_le {s : State} (h : s.pc ≤ 255) : s.pc + (fetchWindow s).length ≤ 256 := by
  rw [fetchWindow_eq]
  split_ifs <;> simp only [List.length_cons, List.length_nil] <;> omega

/-- A Running core whose `pc` is above 255 raises at the fetch, with the address (R121). -/
theorem step_past_the_end {s : State} (hrun : s.run = .running) (h : 255 < s.pc) :
    step s = .next (s.raised (.outOfBounds .fetch s.pc)) := by
  refine step_of_fetch_error hrun ?_
  simp [fetchInstr, fetchWindow_eq_nil h, decode, rejectCause]

/-- A fetch that answers has read the opcode at `pc`, and the whole instruction at or below address 255. -/
theorem opcode_and_end_of_fetchInstr {s : State} {i : Instr} (h : fetchInstr s = .ok i) :
    s.mem.read s.pc = opcodeOf i.mnemonic ∧ s.pc + i.length ≤ 256 := by
  obtain ⟨j, rest, hd, hj⟩ | ⟨e, -, he⟩ := fetchInstr_cases s
  · obtain rfl : j = i := Except.ok.inj (hj.symm.trans h)
    have hbytes : fetchWindow s = encode j ++ rest := eq_encode_append_of_decode hd
    have hpc : s.pc ≤ 255 := by
      by_contra hgt
      rw [fetchWindow_eq_nil (by omega)] at hbytes
      cases hbytes
    constructor
    · obtain ⟨bytes, hw⟩ := fetchWindow_eq_cons hpc
      exact List.head_eq_of_cons_eq (hw.symm.trans hbytes)
    · have hend := pc_add_length_fetchWindow_le hpc
      rw [hbytes, List.length_append, length_encode] at hend
      omega
  · rw [he] at h; cases h

/-! ### How an instruction ends (R120, R125, R126, R217) -/

/-- The result is a next state, and that state has the property `P` or is a raise from `s`, the state before. -/
def EndsIn (s : State) (r : Result) (P : State → Prop) : Prop :=
  ∃ t, r = .next t ∧ (P t ∨ ∃ c, t = s.raised c)

theorem EndsIn.of_next {s t : State} {r : Result} {P : State → Prop} (h : EndsIn s r P) (hr : r = .next t) :
    P t ∨ ∃ c, t = s.raised c := by
  obtain ⟨u, hu, hP⟩ := h
  rw [hr] at hu
  cases hu
  exact hP

theorem EndsIn.ok {s t : State} {P : State → Prop} (h : P t) : EndsIn s (complete s (.ok t)) P :=
  ⟨t, rfl, .inl h⟩

/-- A check in front of an instruction only adds a raise from the state before it. -/
theorem EndsIn.bind {α : Type} {s : State} {P : State → Prop} {x : Except Cause α} {f : α → Except Cause State}
    (h : ∀ a, EndsIn s (complete s (f a)) P) : EndsIn s (complete s (x >>= f)) P := by
  cases x with
  | ok a => exact h a
  | error c => exact ⟨s.raised c, rfl, .inr ⟨c, rfl⟩⟩

/-- What completion leaves of `run` and `pc`: the run state is kept, and without a redirect `pc` advances by `len`. -/
def Continues (redirect : Bool) (len : Nat) (s t : State) : Prop :=
  t.run = s.run ∧ (redirect = false → t.pc = s.pc + len)

@[simp] theorem writeBack_run (s : State) (r : Reg) (y : AluOut) : (writeBack s r y).run = s.run := by
  cases y <;> rfl

@[simp] theorem writeBack_pc (s : State) (r : Reg) (y : AluOut) : (writeBack s r y).pc = s.pc := by
  cases y <;> rfl

theorem aluInstr_ends (op : AluOp) (len : Nat) (a b : Byte) (s : State) :
    EndsIn s (aluInstr op len a b s) (Continues false len s) :=
  .bind fun _ => .ok ⟨by simp, by simp⟩

theorem branchIf_ends (taken : Bool) (len : Nat) (a : Byte) (s : State) :
    EndsIn s (branchIf taken len a s) (Continues taken len s) := by
  cases taken with
  | true => exact .bind fun _ => .ok ⟨rfl, nofun⟩
  | false => exact .ok ⟨rfl, fun _ => rfl⟩

/-- Every instruction but HLT raises from the state before it or continues; it advances unless it redirects (R125 to
R127). -/
theorem exec_ends {i : Instr} (hi : i ≠ .hlt) (s : State) :
    EndsIn s (exec i s) (Continues (redirects s.fl i.mnemonic) i.length s) := by
  cases i with
  | ldi => exact .bind fun _ => .ok ⟨rfl, fun _ => rfl⟩
  | prn => exact .bind fun _ => .ok ⟨rfl, fun _ => rfl⟩
  | hlt => exact absurd rfl hi
  | push => exact .bind fun _ => .bind fun _ => .ok ⟨rfl, fun _ => rfl⟩
  | pop => exact .bind fun _ => .bind fun _ => .ok ⟨rfl, fun _ => rfl⟩
  | call => exact .bind fun _ => .bind fun _ => .bind fun _ => .ok ⟨rfl, nofun⟩
  | ret => exact .bind fun _ => .ok ⟨rfl, nofun⟩
  | jmp => exact .bind fun _ => .ok ⟨rfl, nofun⟩
  | jeq a => exact branchIf_ends _ _ a s
  | jne a => exact branchIf_ends _ _ a s
  | mul a b | add a b | cmp a b | and a b | or a b => exact aluInstr_ends _ _ a b s

theorem exec_hlt (s : State) : exec .hlt s = .next s.halt := rfl

/-- The three ways an instruction ends: HLT halts, every other continues, or the state before it is raised from. -/
theorem exec_cases {i : Instr} {s t : State} (h : exec i s = .next t) :
    (i = .hlt ∧ t = s.halt) ∨ (i ≠ .hlt ∧ Continues (redirects s.fl i.mnemonic) i.length s t) ∨
      (i ≠ .hlt ∧ ∃ c, t = s.raised c) := by
  by_cases hi : i = .hlt
  · subst hi; cases h; exact .inl ⟨rfl, rfl⟩
  · exact .inr (((exec_ends hi s).of_next h).imp (⟨hi, ·⟩) (⟨hi, ·⟩))

theorem exists_exec_eq_next (i : Instr) (s : State) : ∃ t, exec i s = .next t := by
  by_cases hi : i = .hlt
  · exact ⟨s.halt, hi ▸ exec_hlt s⟩
  · obtain ⟨t, ht, -⟩ := exec_ends hi s
    exact ⟨t, ht⟩

/-! ### What every step of a Running core does (R129, R217) -/

theorem exists_step_eq_next {s : State} (hrun : s.run = .running) : ∃ t, step s = .next t := by
  cases h : fetchInstr s with
  | error c => exact ⟨_, step_of_fetch_error hrun h⟩
  | ok i => rw [step_of_fetch_ok hrun h]; exact exists_exec_eq_next i s

/-- A step that leaves Faulted has changed nothing but `run`, whichever check failed. -/
theorem eq_raised_of_step_faulted {s t : State} {c : Cause} (hstep : step s = .next t) (ht : t.run = .faulted c) :
    t = s.raised c := by
  have same_cause : ∀ d, t = s.raised d → t = s.raised c := by
    rintro d rfl
    rw [Run.faulted.inj ht]
  obtain ⟨hrun, ⟨d, -, hd⟩ | ⟨i, -, hexec⟩⟩ := step_cases hstep
  · exact same_cause d hd
  · obtain ⟨-, rfl⟩ | ⟨-, hkeep, -⟩ | ⟨-, d, hd⟩ := exec_cases hexec
    · cases ht
    · rw [hkeep, hrun] at ht; cases ht
    · exact same_cause d hd

end Sys2Proof.Machine

namespace Sys2Proof.Proofs

open Sys2Proof.Machine

/-! ### The obligations of the execution cycle -/

/-- Settles O14: the window begins with the byte at `pc`, and above 255 it is empty, which the fetch raises. -/
theorem fetchPastTheEndRaises : Obligations.FetchPastTheEndRaises := by
  refine ⟨fun s hpc => ?_, fun s hrun hpc => ?_⟩
  · obtain ⟨bytes, hw⟩ := fetchWindow_eq_cons hpc
    rw [hw, List.head?_cons]
  · have hvalue : (s.pc : Int) = 256 := by omega
    rw [step_past_the_end hrun (by omega), hvalue]
    rfl

/-- Settles O18: a Running core always steps, `step` is a function, and every fault is a raise from the state before. -/
theorem runningCoreHasExactlyOneNextState : Obligations.RunningCoreHasExactlyOneNextState := by
  intro s hrun
  obtain ⟨t, ht⟩ := exists_step_eq_next hrun
  refine ⟨t, ht, fun t' ht' => ?_, fun c hc => eq_raised_of_step_faulted ht hc⟩
  exact Host.Outcome.next.inj (ht'.symm.trans ht)

/-- Settles O19, by the three ways an instruction ends. -/
theorem onlyHltStopsCleanly : Obligations.OnlyHltStopsCleanly := by
  intro i s t hrun hexec
  obtain ⟨hi, rfl⟩ | ⟨hi, hkeep, -⟩ | ⟨hi, hfault⟩ := exec_cases hexec
  · exact ⟨fun _ => rfl, fun hne => absurd hi hne⟩
  · exact ⟨fun heq => absurd heq hi, fun _ => .inl (hkeep.trans hrun)⟩
  · exact ⟨fun heq => absurd heq hi, fun _ => .inr hfault⟩

/-- Settles O20: an instruction that completes without a redirect advances by its length, which the fetch read off the
opcode at `pc` and which ends at or below 256; there the next fetch is past the end. -/
theorem defaultAdvanceIsExact : Obligations.DefaultAdvanceIsExact := by
  intro s t i hrun hfetch hexec htrun hadv
  obtain ⟨hhlt, hredirect⟩ := (defaultAdvance_iff s.fl i.mnemonic).mp hadv
  obtain ⟨hop, hend⟩ := opcode_and_end_of_fetchInstr hfetch
  have hlen : opcodeLength (s.mem.read s.pc) = i.length := by rw [hop]; rfl
  have htwo : 2 ≤ i.length := two_le_lengthOf hhlt fun hret => by simp [hret, redirects] at hredirect
  have hpc : t.pc = s.pc + i.length := by
    obtain ⟨rfl, -⟩ | ⟨-, -, hpc⟩ | ⟨-, c, rfl⟩ := exec_cases hexec
    · exact absurd rfl hhlt
    · exact hpc hredirect
    · cases htrun
  refine ⟨by rw [hpc, hlen], by omega, by omega, fun h256 => ?_⟩
  exact fetchPastTheEndRaises.2 t htrun h256

end Sys2Proof.Proofs

/-! PROOFS. The ALU family (spec/41_alu.md): O39 and O40, and the lemmas they rest on: how an ALU instruction with two
register operands in range ends, and what the fetch of an instruction that runs past address 255 raises. -/

namespace Sys2Proof.Machine

/-! ### An instruction that does not fit in memory (R123) -/

/-- From address 253 up, the fetch window ends exactly at address 255. -/
theorem pc_add_length_fetchWindow {s : State} (hlow : 253 ≤ s.pc) (hpc : s.pc ≤ 255) :
    s.pc + (fetchWindow s).length = 256 := by
  rw [fetchWindow_eq]
  split_ifs <;> simp only [List.length_cons, List.length_nil] <;> omega

/-- The first operand byte that is missing is the one at address 256, whatever the length of the instruction. -/
theorem fetchInstr_of_operand_past_the_end {s : State} {m : Mnemonic} (hop : s.mem.read s.pc = opcodeOf m)
    (hpc : s.pc ≤ 255) (hend : 256 < s.pc + lengthOf m) : fetchInstr s = .error (.outOfBounds .operand 256) := by
  obtain ⟨bytes, hw⟩ := fetchWindow_eq_cons hpc
  have hdecode : decode (fetchWindow s) = decodeOperands m bytes := by rw [hw, hop, decode_opcodeOf]
  have hlen : s.pc + (bytes.length + 1) = 256 := by
    have hthree := lengthOf_le_three m
    rw [← pc_add_length_fetchWindow (by omega) hpc, hw, List.length_cons]
  have missing : ∀ k, s.pc + k = 256 → decodeOperands m bytes = .error (.missingOperand k) →
      fetchInstr s = .error (.outOfBounds .operand 256) := by
    intro k hk hd
    simp [fetchInstr, hdecode, hd, rejectCause, hk]
  obtain ⟨i, rest, hd, rfl, -⟩ | ⟨hnone, -, hd⟩ | ⟨hone, -, hd⟩ := decodeOperands_cases m bytes
  · have hfetch : fetchInstr s = .ok i := by simp [fetchInstr, hdecode, hd]
    obtain ⟨-, hfits⟩ := opcode_and_end_of_fetchInstr hfetch
    exact absurd hfits (Nat.not_le.mpr hend)
  · exact missing 1 (by omega) hd
  · exact missing 2 (by omega) hd

theorem step_of_operand_past_the_end {s : State} {m : Mnemonic} (hrun : s.run = .running)
    (hop : s.mem.read s.pc = opcodeOf m) (hpc : s.pc ≤ 255) (hend : 256 < s.pc + lengthOf m) :
    step s = .next (s.raised (.outOfBounds .operand 256)) :=
  step_of_fetch_error hrun (fetchInstr_of_operand_past_the_end hop hpc hend)

/-! ### Completion of an ALU instruction (R148) -/

/-- With both operands registers, an ALU instruction writes its output back and advances. -/
theorem aluInstr_regByte (op : AluOp) (len : Nat) (ra rb : Reg) (s : State) :
    aluInstr op len (regByte ra) (regByte rb) s =
      .next ((writeBack s ra (alu op (s.x.get ra) (s.x.get rb))).advance len) := by
  simp [aluInstr, regPair]

end Sys2Proof.Machine

namespace Sys2Proof.Proofs

open Sys2Proof.Machine

/-! ### The obligations of the ALU -/

/-- Settles O39: the byte written is the conjunction of the two register values; the faults are those of every ALU
instruction of three bytes. -/
theorem andIsBitwise : Obligations.AndIsBitwise := by
  intro s a b
  refine ⟨decode_opcodeOf .and [a, b], fun ra rb => ?completes, ?aFault, ?bFault, fun hrun hop hpc => ?operandFault⟩
  case completes => exact ⟨_, aluInstr_regByte .and 3 ra rb s, fun _ _ => BitVec.getLsbD_and⟩
  case aFault => exact fun ha => aluInstr_of_a_gt ha .and 3 b s
  case bFault => exact fun ra hb => aluInstr_of_b_gt hb .and 3 ra s
  case operandFault =>
    exact step_of_operand_past_the_end (m := .and) hrun hop (by omega) (by rw [lengthOf_and]; omega)

/-- Settles O40: as O39, with the disjunction of the two register values. -/
theorem orIsBitwise : Obligations.OrIsBitwise := by
  intro s a b
  refine ⟨decode_opcodeOf .or [a, b], fun ra rb => ?completes, ?aFault, ?bFault, fun hrun hop hpc => ?operandFault⟩
  case completes => exact ⟨_, aluInstr_regByte .or 3 ra rb s, fun _ _ => BitVec.getLsbD_or⟩
  case aFault => exact fun ha => aluInstr_of_a_gt ha .or 3 b s
  case bFault => exact fun ra hb => aluInstr_of_b_gt hb .or 3 ra s
  case operandFault =>
    exact step_of_operand_past_the_end (m := .or) hrun hop (by omega) (by rw [lengthOf_or]; omega)

end Sys2Proof.Proofs

/-! PROOFS. The data movement family (spec/42_data_movement.md): O35 and O36, and the lemmas they rest on: how LDI and
PRN complete, and that every other instruction leaves the output log. -/

namespace Sys2Proof.Machine

/-! ### Completion of LDI and PRN (R160, R161) -/

theorem exec_ldi_regByte (r : Reg) (imm : Byte) (s : State) :
    exec (.ldi (regByte r) imm) s = .next ((s.setReg r imm).advance 3) := by
  simp [exec, execLdi]

theorem exec_prn_regByte (r : Reg) (s : State) :
    exec (.prn (regByte r)) s = .next ((s.print (s.x.get r)).advance 2) := by
  simp [exec, execPrn]

/-! ### Only PRN writes the output log (R161) -/

@[simp] theorem writeBack_out (s : State) (r : Reg) (y : AluOut) : (writeBack s r y).out = s.out := by
  cases y <;> rfl

theorem aluInstr_ends_out (op : AluOp) (len : Nat) (a b : Byte) (s : State) :
    EndsIn s (aluInstr op len a b s) (·.out = s.out) :=
  .bind fun _ => .ok (by simp)

theorem branchIf_ends_out (taken : Bool) (len : Nat) (a : Byte) (s : State) :
    EndsIn s (branchIf taken len a s) (·.out = s.out) := by
  cases taken with
  | true => exact .bind fun _ => .ok rfl
  | false => exact .ok rfl

/-- Behind its checks, no instruction but PRN ends in an update that touches `out`. -/
theorem exec_ends_out {i : Instr} (hi : i.mnemonic ≠ .prn) (s : State) : EndsIn s (exec i s) (·.out = s.out) := by
  cases i with
  | prn => exact absurd rfl hi
  | hlt => exact .ok rfl
  | ldi | jmp | ret => exact .bind fun _ => .ok rfl
  | push | pop => exact .bind fun _ => .bind fun _ => .ok rfl
  | call => exact .bind fun _ => .bind fun _ => .bind fun _ => .ok rfl
  | jeq a | jne a => exact branchIf_ends_out _ _ a s
  | mul a b | add a b | cmp a b | and a b | or a b => exact aluInstr_ends_out _ _ a b s

theorem out_eq_of_exec {i : Instr} {s t : State} (hi : i.mnemonic ≠ .prn) (h : exec i s = .next t) :
    t.out = s.out := by
  obtain hout | ⟨c, rfl⟩ := (exec_ends_out hi s).of_next h
  · exact hout
  · exact State.raised_out s c

end Sys2Proof.Machine

namespace Sys2Proof.Proofs

open Sys2Proof.Machine

/-! ### The obligations of data movement -/

/-- Settles O35: behind the index check LDI is one register write and an advance by 3; at 254 and 255 its three bytes run
past the end. -/
theorem ldiLoadsTheImmediate : Obligations.LdiLoadsTheImmediate := by
  intro s a imm
  refine ⟨decode_opcodeOf .ldi [a, imm], fun r => exec_ldi_regByte r imm s, fun ha => complete_regIdx_of_gt ha s _,
    fun hrun hop hpc => ?operandFault⟩
  case operandFault =>
    exact step_of_operand_past_the_end (m := .ldi) hrun hop (by omega) (by rw [lengthOf_ldi]; omega)

/-- Settles O36: behind the index check PRN is one append and an advance by 2, which from 254 leads past the end; every
other instruction ends with the output log it began with. -/
theorem prnAppendsTheRegister : Obligations.PrnAppendsTheRegister := by
  intro s a
  refine ⟨decode_opcodeOf .prn [a], fun r => exec_prn_regByte r s, fun ha => complete_regIdx_of_gt ha s _,
    fun hrun hop hpc => ?operandFault, fun r hrun hpc => ?printsAt254, fun i t hi hexec => out_eq_of_exec hi hexec⟩
  case operandFault =>
    exact step_of_operand_past_the_end (m := .prn) hrun hop (by omega) (by rw [lengthOf_prn]; omega)
  case printsAt254 =>
    have hend : ((s.print (s.x.get r)).advance 2).pc = 256 := by simp [hpc]
    exact ⟨_, exec_prn_regByte r s, rfl, hend, fetchPastTheEndRaises.2 _ hrun hend⟩

end Sys2Proof.Proofs

/-! PROOFS. The control transfer family (spec/44_control_transfer.md): O47, O48 and O49, and the lemmas they rest on: how
a jump and a branch complete, what CMP leaves for JEQ and JNE to read, and the missing operand byte at address 255. -/

namespace Sys2Proof.Machine

/-! ### Completion of a jump and of a branch (R181 to R183) -/

theorem exec_jmp_regByte (r : Reg) (s : State) : exec (.jmp (regByte r)) s = .next (s.jump (s.x.get r)) := by
  simp [exec, execJmp]

theorem branchIf_regByte_of_taken {taken : Bool} (h : taken = true) (len : Nat) (r : Reg) (s : State) :
    branchIf taken len (regByte r) s = .next (s.jump (s.x.get r)) := by
  simp [branchIf, h]

theorem branchIf_of_taken_of_gt {taken : Bool} (h : taken = true) {a : Byte} (ha : 7 < a.toNat) (len : Nat) (s : State) :
    branchIf taken len a s = .next (s.raised (.outOfBounds .regIndex a.toNat)) := by
  subst h
  exact complete_regIdx_of_gt ha s _

/-- A branch not taken advances whatever its operand byte is. -/
theorem branchIf_of_not_taken {taken : Bool} (h : taken = false) (len : Nat) (a : Byte) (s : State) :
    branchIf taken len a s = .next (s.advance len) := by
  subst h
  rfl

/-! ### The E flag after a CMP (R145) -/

/-- CMP's value for FL has E set exactly on equal operands. -/
theorem flagE_compareFlags {v w : Byte} : flagE (compareFlags v w) = true ↔ v = w := by
  obtain ⟨heq, hfl⟩ | ⟨hgt, hfl⟩ | ⟨hlt, hfl⟩ := compareFlags_cases v w <;> rw [hfl]
  · exact iff_of_true (by decide) heq
  · exact iff_of_false (by decide) fun heq => absurd hgt (heq ▸ lt_irrefl _)
  · exact iff_of_false (by decide) fun heq => absurd hlt (heq ▸ lt_irrefl _)

theorem flagE_of_exec_cmp {ra rb : Reg} {s t : State} (h : exec (.cmp (regByte ra) (regByte rb)) s = .next t) :
    flagE t.fl = true ↔ s.x.get ra = s.x.get rb := by
  have hcmp := aluInstr_regByte .cmp (lengthOf .cmp) ra rb s
  obtain rfl := Host.Outcome.next.inj (hcmp.symm.trans h)
  exact flagE_compareFlags

/-! ### An operand byte missing at the last address (R123) -/

theorem step_of_operand_missing_at_255 {s : State} {m : Mnemonic} (hlen : 2 ≤ lengthOf m) (hrun : s.run = .running)
    (hop : s.mem.read s.pc = opcodeOf m) (hpc : s.pc = 255) : step s = .next (s.raised (.outOfBounds .operand 256)) :=
  step_of_operand_past_the_end hrun hop (by omega) (by omega)

end Sys2Proof.Machine

namespace Sys2Proof.Proofs

open Sys2Proof.Machine

/-! ### The obligations of control transfer -/

/-- Settles O47: behind the index check JMP is one write of `pc`; at 255 its operand byte is past the end. -/
theorem jmpGoesToTheRegister : Obligations.JmpGoesToTheRegister := by
  intro s a
  exact ⟨decode_opcodeOf .jmp [a], fun r => exec_jmp_regByte r s, fun ha => complete_regIdx_of_gt ha s _,
    step_of_operand_missing_at_255 lengthOf_jmp.ge⟩

/-- Settles O48: JEQ is a branch on the E flag, which a CMP of equal values sets. -/
theorem jeqJumpsWhenEqualIsSet : Obligations.JeqJumpsWhenEqualIsSet := by
  intro s a
  have jumps : ∀ (t : State) (r : Reg), flagE t.fl = true →
      exec (.jeq (regByte r)) t = .next { t with pc := (t.x.get r).toNat } :=
    fun t r hE => branchIf_regByte_of_taken hE (lengthOf .jeq) r t
  exact ⟨decode_opcodeOf .jeq [a], rfl, fun r hE => jumps s r hE,
    fun hE ha => branchIf_of_taken_of_gt hE ha (lengthOf .jeq) s, fun hE => branchIf_of_not_taken hE (lengthOf .jeq) a s,
    fun ra rb r t heq hcmp => jumps t r ((flagE_of_exec_cmp hcmp).mpr heq), step_of_operand_missing_at_255 lengthOf_jeq.ge⟩

/-- Settles O49: JNE is a branch on the negated E flag, so after a CMP of equal values it advances. -/
theorem jneJumpsWhenEqualIsClear : Obligations.JneJumpsWhenEqualIsClear := by
  intro s a
  have advances : ∀ t : State, flagE t.fl = true → exec (.jne a) t = .next { t with pc := t.pc + 2 } :=
    fun t hE => branchIf_of_not_taken (congrArg not hE) (lengthOf .jne) a t
  exact ⟨decode_opcodeOf .jne [a], rfl,
    fun r hclear => branchIf_regByte_of_taken (congrArg not hclear) (lengthOf .jne) r s,
    fun hclear ha => branchIf_of_taken_of_gt (congrArg not hclear) ha (lengthOf .jne) s, fun hE => advances s hE,
    fun ra rb t heq hcmp => advances t ((flagE_of_exec_cmp hcmp).mpr heq), step_of_operand_missing_at_255 lengthOf_jne.ge⟩

end Sys2Proof.Proofs

/-! PROOFS. The system family (spec/45_system.md): O53, and the lemma it rests on: the one byte of HLT is all its fetch
needs. -/

namespace Sys2Proof.Machine

/-- HLT has no operand bytes, so its opcode is fetched whole at every address up to 255 (R123, R200). -/
theorem fetchInstr_of_hlt {s : State} (hpc : s.pc ≤ 255) (hop : s.mem.read s.pc = opcodeOf .hlt) :
    fetchInstr s = .ok .hlt := by
  obtain ⟨bytes, hw⟩ := fetchWindow_eq_cons hpc
  have hdecode : decode (fetchWindow s) = .ok (.hlt, bytes) := by
    rw [hw, hop, decode_opcodeOf]; rfl
  simp [fetchInstr, hdecode]

end Sys2Proof.Machine

namespace Sys2Proof.Proofs

open Sys2Proof.Machine

/-! ### The obligation of the system instruction -/

/-- Settles O53: once fetched, HLT is one write of `run`; and a step that answers a next state began Running. -/
theorem hltStopsInPlace : Obligations.HltStopsInPlace := by
  refine ⟨decode_opcodeOf .hlt [], exec_hlt, fun s hrun hpc hop => ?steps, fun s t hhalted hstep => ?stays⟩
  case steps => exact (step_of_fetch_ok hrun (fetchInstr_of_hlt hpc hop)).trans (exec_hlt s)
  case stays =>
    obtain ⟨hrunning, -⟩ := step_cases hstep
    rw [hhalted] at hrunning
    cases hrunning

end Sys2Proof.Proofs

/-! PROOFS. The reset family (spec/70_reset_and_hazards.md): O2, and the lemmas it rests on: which state an accepted
image gives, and what its memory holds at the lowest address. -/

namespace Sys2Proof.Machine

/-- An image is accepted exactly when it has at most 256 values, each at most 255, and then the state is reset with the
image's bytes stored from address 0 up (R40, R254, D15). -/
theorem loadImage_eq_ok_iff {image : List Nat} {s : State} :
    loadImage image = .ok s ↔
      image.length ≤ Config.memSize ∧ (∀ v ∈ image, v ≤ 255) ∧
      s = { State.reset with mem := Memory.writeBytes [] 0 (image.map (BitVec.ofNat 8)) } := by
  have hany : image.any (fun n => decide (255 < n)) = true ↔ ¬ ∀ v ∈ image, v ≤ 255 := by simp
  unfold loadImage
  split
  · next hlong => simp [Nat.not_le.mpr hlong]
  · next hshort =>
    split
    · next hwide => simp [hany.mp hwide]
    · next hbytes =>
      have hvalues : ∀ v ∈ image, v ≤ 255 := not_not.mp (mt hany.mpr hbytes)
      constructor
      · rintro ⟨⟩
        exact ⟨Nat.not_lt.mp hshort, hvalues, rfl⟩
      · rintro ⟨-, -, rfl⟩
        rfl

/-- The first byte stored from an address up is the byte that address then holds. -/
theorem Memory.read_writeBytes_first {m : Memory} (h : m.wf) {a : Nat} (ha : a < Config.memSize) (v : Byte)
    (vs : List Byte) : (m.writeBytes a (v :: vs)).read a = v := by
  rw [Memory.read_writeBytes a a (v :: vs) h, if_pos ⟨le_rfl, ha⟩, Nat.sub_self]
  rfl

end Sys2Proof.Machine

namespace Sys2Proof.Proofs

open Sys2Proof.Machine

/-! ### The obligation of the reset -/

/-- Settles O2: a load changes nothing of reset but the memory, so the fetch window begins at address 0, where the first
byte of the image was stored. -/
theorem executionStartsAtAddressZero : Obligations.ExecutionStartsAtAddressZero := by
  intro image s hload
  obtain ⟨-, -, rfl⟩ := loadImage_eq_ok_iff.mp hload
  refine ⟨rfl, rfl, rfl, ?fetched, ?placed⟩
  case fetched =>
    obtain ⟨bytes, hw⟩ := fetchWindow_eq_cons (s := { State.reset with mem := _ }) (Nat.zero_le 255)
    exact congrArg List.head? hw
  case placed =>
    intro v hv
    obtain ⟨vs, rfl⟩ := List.head?_eq_some_iff.mp hv
    exact Memory.read_writeBytes_first reset_mem_wf (by decide) _ _

end Sys2Proof.Proofs

/-! PROOFS. The decoder and the fetch (spec/30_encoding.md, spec/40_execution_cycle.md): O9, O11, O12, O13, O16 and O17,
and the lemmas they rest on: that the decoder reads back an encoding, and which bytes the fetch window holds. -/

namespace Sys2Proof

/-- The decoder reads an instruction back from its encoding, whatever follows (R90, R97). -/
theorem decode_encode_append (i : Instr) (rest : List Byte) : decode (encode i ++ rest) = .ok (i, rest) := by
  have hop : decode (encode i ++ rest) = decodeOperands i.mnemonic (i.operandBytes ++ rest) := decode_opcodeOf _ _
  rw [hop]
  cases i <;> rfl

end Sys2Proof

namespace Sys2Proof.Machine

/-! ### The bytes of the fetch window (R61, R121, R123) -/

/-- Byte `k` of the fetch window is the byte at `pc + k`, where that is an address. -/
theorem getElem?_fetchWindow {s : State} {k : Nat} (hk : k ≤ 2) (hend : s.pc + k ≤ 255) :
    (fetchWindow s)[k]? = some (s.mem.read (s.pc + k)) := by
  rw [fetchWindow_eq]
  rcases Nat.lt_or_ge 253 s.pc with hhigh | hlow
  · obtain ⟨hpc, rfl | rfl⟩ | ⟨hpc, rfl⟩ : (s.pc = 254 ∧ (k = 0 ∨ k = 1)) ∨ (s.pc = 255 ∧ k = 0) := by omega
    · simp [hpc]
    · simp [hpc]
    · simp [hpc]
  · rw [if_pos hlow]
    interval_cases k <;> rfl

/-- The fetch answers `i` exactly when the window begins with the encoding of `i`. -/
theorem fetchInstr_eq_ok_iff {s : State} {i : Instr} :
    fetchInstr s = .ok i ↔ ∃ rest, fetchWindow s = encode i ++ rest := by
  constructor
  · intro h
    obtain ⟨j, rest, hd, hj⟩ | ⟨e, -, he⟩ := fetchInstr_cases s
    · obtain rfl : j = i := Except.ok.inj (hj.symm.trans h)
      exact ⟨rest, eq_encode_append_of_decode hd⟩
    · rw [he] at h; cases h
  · rintro ⟨rest, hw⟩
    simp [fetchInstr, hw, decode_encode_append]

/-- The bytes of a fetched instruction are the first bytes of the window. -/
theorem getElem?_encode_of_fetchInstr {s : State} {i : Instr} (h : fetchInstr s = .ok i) {k : Nat} (hk : k < i.length) :
    (encode i)[k]? = (fetchWindow s)[k]? := by
  obtain ⟨rest, hw⟩ := fetchInstr_eq_ok_iff.mp h
  rw [hw, List.getElem?_append_left (by rwa [length_encode])]

theorem length_le_three (i : Instr) : i.length ≤ 3 := lengthOf_le_three i.mnemonic

/-- The encoding of `i` stands in memory at `pc`. -/
def EncodedAtPc (s : State) (i : Instr) : Prop :=
  ∀ k v, (encode i)[k]? = some v → s.mem.read (s.pc + k) = v

/-- A fetched instruction stands in memory at `pc` (R121, R123). -/
theorem encodedAtPc_of_fetchInstr {s : State} {i : Instr} (h : fetchInstr s = .ok i) : EncodedAtPc s i := by
  intro k v hv
  have hk : k < i.length := by
    rw [← length_encode]
    exact (List.getElem?_eq_some_iff.mp hv).1
  obtain ⟨-, hend⟩ := opcode_and_end_of_fetchInstr h
  have hthree := length_le_three i
  rw [getElem?_encode_of_fetchInstr h hk, getElem?_fetchWindow (by omega) (by omega)] at hv
  exact Option.some.inj hv

/-- An instruction that stands in memory at `pc` and ends at or below address 255 is fetched. -/
theorem fetchInstr_of_encodedAtPc {s : State} {i : Instr} (hend : s.pc + i.length ≤ 256) (h : EncodedAtPc s i) :
    fetchInstr s = .ok i := by
  refine fetchInstr_eq_ok_iff.mpr ⟨(fetchWindow s).drop i.length, ?_⟩
  have htake : (fetchWindow s).take i.length = encode i := by
    refine List.ext_getElem? fun k => ?_
    have hthree := length_le_three i
    rcases lt_or_ge k i.length with hk | hk
    · have hlt : k < (encode i).length := by rwa [length_encode]
      rw [List.getElem?_take_of_lt hk, getElem?_fetchWindow (by omega) (by omega),
        List.getElem?_eq_getElem hlt, h k _ (List.getElem?_eq_getElem hlt)]
    · rw [List.getElem?_take_eq_none hk, List.getElem?_eq_none (by rwa [length_encode])]
  rw [← htake, List.take_append_drop]

/-- With a legal opcode at `pc` whose length ends at or below address 255, the fetch answers (R122, R123). -/
theorem exists_fetchInstr_eq_ok {s : State} {m : Mnemonic} (hop : s.mem.read s.pc = opcodeOf m)
    (hend : s.pc + lengthOf m ≤ 256) : ∃ i, fetchInstr s = .ok i ∧ i.mnemonic = m := by
  have hpc : s.pc ≤ 255 := by
    have hpos : 1 ≤ lengthOf m := Nat.le_add_left ..
    omega
  obtain ⟨bytes, hw⟩ := fetchWindow_eq_cons hpc
  have hdecode : decode (fetchWindow s) = decodeOperands m bytes := by rw [hw, hop, decode_opcodeOf]
  have hlen : lengthOf m ≤ bytes.length + 1 := by
    have hthree := lengthOf_le_three m
    have hlast : (fetchWindow s)[lengthOf m - 1]? ≠ none := by
      rw [getElem?_fetchWindow (by omega) (by omega)]
      exact nofun
    rw [hw, ne_eq, List.getElem?_eq_none_iff, List.length_cons] at hlast
    omega
  obtain ⟨i, rest, hd, hm, -⟩ | ⟨hnone, htwo, -⟩ | ⟨hone, hthree, -⟩ := decodeOperands_cases m bytes
  · exact ⟨i, by simp [fetchInstr, hdecode, hd], hm⟩
  · omega
  · omega

/-- After `withFetchWord` the three bytes of the word are the fetch window (log 3). -/
theorem fetchWindow_withFetchWord {s : State} (hwf : s.mem.wf) (hpc : s.pc ≤ 253) (nbits w : Nat) :
    fetchWindow (s.withFetchWord nbits w) = wordBytes nbits w := by
  have hread : ∀ k, k ≤ 2 → (s.withFetchWord nbits w).mem.read (s.pc + k) =
      ((wordBytes nbits w)[k]?).getD (s.mem.read (s.pc + k)) := by
    intro k hk
    have hmem : s.pc ≤ s.pc + k ∧ s.pc + k < Config.memSize := ⟨Nat.le_add_right .., by simp only [Config.memSize]; omega⟩
    rw [State.withFetchWord, Memory.read_writeBytes _ _ _ hwf, if_pos hmem, Nat.add_sub_cancel_left]
  have h0 := hread 0 (by omega)
  have h1 := hread 1 (by omega)
  have h2 := hread 2 le_rfl
  rw [fetchWindow_eq, if_pos (show (s.withFetchWord nbits w).pc ≤ 253 from hpc)]
  simp only [wordBytes, Nat.add_zero, List.getElem?_cons_zero, List.getElem?_cons_succ, Option.getD_some] at h0 h1 h2 ⊢
  exact congrArg₂ _ h0 (congrArg₂ _ h1 (congrArg₂ _ h2 rfl))

end Sys2Proof.Machine

namespace Sys2Proof.Proofs

open Sys2Proof.Machine

/-! ### The obligations of the decoder and the fetch -/

/-- Settles O9: what a decoding has read is an encoding, and every encoding reads back. -/
theorem decodeReadsExactlyTheEncoding : Obligations.DecodeReadsExactlyTheEncoding := by
  intro bytes i rest
  constructor
  · exact eq_encode_append_of_decode
  · rintro rfl
    exact decode_encode_append i rest

/-- Settles O11: the fetch answers what the decoder reads, and the step runs it. -/
theorem stepRunsTheDecodedInstruction : Obligations.StepRunsTheDecodedInstruction := by
  intro s i rest hrun hd
  exact step_of_fetch_ok hrun (fetchInstr_eq_ok_iff.mpr ⟨rest, eq_encode_append_of_decode hd⟩)

/-- Settles O12: the window begins with the encoding that stands in memory. -/
theorem stepRunsTheInstructionInMemory : Obligations.StepRunsTheInstructionInMemory := by
  intro s i hrun hend hbytes
  exact step_of_fetch_ok hrun (fetchInstr_of_encodedAtPc hend hbytes)

/-- Settles O13: the window is the word's three bytes, from which the decoder reads the instruction. -/
theorem fetchWordRunsNext : Obligations.FetchWordRunsNext := by
  intro s nbits w i hwf hrun hpc hword
  have hdecode : ∃ rest, decode (wordBytes nbits w) = .ok (i, rest) := by
    unfold decodeTableWord at hword
    split at hword
    · next j rest hd => cases hword; exact ⟨rest, hd⟩
    · cases hword
  obtain ⟨rest, hd⟩ := hdecode
  refine stepRunsTheDecodedInstruction (s.withFetchWord nbits w) i rest hrun ?_
  rw [fetchWindow_withFetchWord hwf hpc, hd]

/-- Settles O16: an instruction that runs past address 255 raises at the fetch; one that does not is fetched whole. -/
theorem operandAboveTheEndRaises : Obligations.OperandAboveTheEndRaises := by
  intro s m hrun hm
  have hop := mnemonicOf?_eq_some.mp hm
  refine ⟨fun hpc hlen => ?last, fun hpc hlen => ?lastButOne, fun hend => ?fits⟩
  case last => exact step_of_operand_past_the_end hrun hop (by omega) (by omega)
  case lastButOne => exact step_of_operand_past_the_end hrun hop (by omega) (by omega)
  case fits =>
    obtain ⟨i, hfetch, hi⟩ := exists_fetchInstr_eq_ok hop hend
    exact ⟨i, hfetch, hi, encodedAtPc_of_fetchInstr hfetch⟩

/-- Settles O17: `step` looks at `run` first. -/
theorem stoppedCoreHasNoStep : Obligations.StoppedCoreHasNoStep := by
  intro s
  refine ⟨fun h => ?_, fun c h => ?_⟩
  · simp only [step, h]
  · simp only [step, h]

end Sys2Proof.Proofs

/-! PROOFS. What every instruction does, said once: `exec_eq` gives the state an instruction leaves from its first failing
check (`firstFault`) and, where no check fails, from its effect (`effect`). From it O28 and O29, and O32 from how every
instruction ends (spec/60_exceptions.md sections 1 and 2). -/

namespace Sys2Proof.Machine

/-! ### The effect of an instruction whose checks pass -/

/-- The register a byte names; for a byte above 7, which fails the index check, it does not matter. -/
def regOf (b : Byte) : Reg := (regOfByte? b).getD .r0

/-- What an ALU instruction leaves when both indices are in range (R148). -/
def aluEffect (s : State) (op : AluOp) (a b : Byte) : State :=
  (writeBack s (regOf a) (alu op (s.x.get (regOf a)) (s.x.get (regOf b)))).advance 3

/-- What a conditional jump leaves when its index, if it is looked up, is in range (R182, R183). -/
def branchEffect (s : State) (taken : Bool) (a : Byte) : State :=
  if taken then s.jump (s.x.get (regOf a)) else s.advance 2

/-- The state POP leaves before its stack pointer is incremented (R172). -/
def popped (s : State) (r : Reg) : State := s.setReg r (s.mem.read s.x.r7.toNat)

/-- The state an instruction leaves when none of its checks fails. -/
def effect (s : State) : Instr → State
  | .ldi a imm => (s.setReg (regOf a) imm).advance 3
  | .prn a => (s.print (s.x.get (regOf a))).advance 2
  | .hlt => s.halt
  | .mul a b => aluEffect s .mul a b
  | .push a => (pushAt s (s.x.r7 - 1#8) (·.x.get (regOf a))).advance 2
  | .pop a => ((popped s (regOf a)).setReg spReg ((popped s (regOf a)).x.r7 + 1#8)).advance 2
  | .call a =>
    let t := pushAt s (s.x.r7 - 1#8) fun _ => BitVec.ofNat 8 (s.pc + 2)
    t.jump (t.x.get (regOf a))
  | .ret => (s.jump (s.mem.read s.x.r7.toNat)).setReg spReg (s.x.r7 + 1#8)
  | .add a b => aluEffect s .add a b
  | .cmp a b => aluEffect s .cmp a b
  | .jmp a => s.jump (s.x.get (regOf a))
  | .jne a => branchEffect s (!flagE s.fl) a
  | .jeq a => branchEffect s (flagE s.fl) a
  | .and a b => aluEffect s .and a b
  | .or a b => aluEffect s .or a b

/-! ### The checks, each with the fault it raises (R212) -/

@[simp] theorem regOf_regByte (r : Reg) : regOf (regByte r) = r := by cases r <;> rfl

@[simp] theorem indexFault_regByte (r : Reg) : indexFault (regByte r) = none := by cases r <;> rfl

theorem indexFault_of_gt {b : Byte} (h : 7 < b.toNat) : indexFault b = some (.outOfBounds .regIndex b.toNat) := if_pos h

/-- A byte passes the index check exactly when it is the byte of a register. -/
theorem indexFault_eq_none_iff {b : Byte} : indexFault b = none ↔ b = regByte (regOf b) := by
  constructor
  · intro h
    obtain ⟨r, rfl, -⟩ | ⟨hb, -⟩ := regIdx_cases b
    · rw [regOf_regByte]
    · rw [indexFault_of_gt hb] at h; cases h
  · intro h
    rw [h, indexFault_regByte]

theorem regIdx_eq (b : Byte) : regIdx b = (indexFault b).elim (.ok (regOf b)) .error := by
  obtain ⟨r, rfl, -⟩ | ⟨hb, h⟩ := regIdx_cases b
  · simp
  · rw [h, indexFault_of_gt hb]; rfl

theorem spDec_eq_elim (s : State) :
    spDec s = (if s.x.r7 = 0x00#8 then some (.outOfBounds .stackPointer (-1)) else none : Option Cause).elim
      (.ok (s.x.r7 - 1#8)) .error := by
  rw [spDec_eq]; split <;> rfl

theorem spInc_eq_elim (s : State) :
    spInc s = (if s.x.r7 = 0xFF#8 then some (.outOfBounds .stackPointer 256) else none : Option Cause).elim
      (.ok (s.x.r7 + 1#8)) .error := by
  rw [spInc_eq]; split <;> rfl

theorem returnAddress_eq_elim (pc : Nat) :
    returnAddress pc 2 =
      (if 255 < pc + 2 then some (.outOfBounds .returnAddress ((pc + 2 : Nat) : Int)) else none : Option Cause).elim
        (.ok (BitVec.ofNat 8 (pc + 2))) .error := by
  unfold returnAddress; split <;> rfl

/-- Only 7 names R7. -/
theorem regOf_eq_r7_iff {a : Byte} : regOf a = .r7 ↔ a = 0x07#8 := by
  revert a; decide

/-- The stack pointer POP increments is R7, or the popped byte when the operand is R7 (R172; log 13). -/
theorem popped_r7 (s : State) (a : Byte) :
    (popped s (regOf a)).x.r7 = if a = 0x07#8 then s.mem.read s.x.r7.toNat else s.x.r7 := by
  rw [← Regs.get_r7, popped, State.setReg_x, Regs.get_set]
  simp only [eq_comm (a := Reg.r7), regOf_eq_r7_iff, Regs.get_r7]

theorem popped_r7_eq_iff (s : State) (a v : Byte) :
    (popped s (regOf a)).x.r7 = v ↔
      (a ≠ 0x07#8 ∧ s.x.r7 = v) ∨ (a = 0x07#8 ∧ s.mem.read s.x.r7.toNat = v) := by
  rw [popped_r7]
  by_cases h : a = 0x07#8 <;> simp [h]

/-! ### The one equation of `exec` -/

/-- A check that raises `first` or passes with `v`, in front of what raises `rest` or leaves `t`. -/
theorem complete_bind {α : Type} {s t : State} {x : Except Cause α} {v : α} {f : α → Except Cause State}
    {first rest : Option Cause} (hx : x = first.elim (.ok v) .error)
    (hf : complete s (f v) = .next (rest.elim t s.raised)) :
    complete s (x >>= f) = .next ((first <|> rest).elim t s.raised) := by
  subst hx
  cases first with
  | none => exact hf
  | some c => rfl

/-- The last check of an instruction. -/
theorem complete_bind_last {α : Type} {s t : State} {x : Except Cause α} {v : α} {f : α → Except Cause State}
    {fault : Option Cause} (hx : x = fault.elim (.ok v) .error) (hf : f v = .ok t) :
    complete s (x >>= f) = .next (fault.elim t s.raised) := by
  subst hx
  cases fault with
  | none => exact congrArg (complete s) hf
  | some c => rfl

theorem regPair_eq (a b : Byte) :
    regPair a b = (indexFault a <|> indexFault b).elim (.ok (regOf a, regOf b)) .error := by
  unfold regPair
  rw [regIdx_eq, regIdx_eq]
  cases indexFault a <;> cases indexFault b <;> rfl

theorem aluInstr_eq (op : AluOp) (a b : Byte) (s : State) :
    aluInstr op 3 a b s = .next ((indexFault a <|> indexFault b).elim (aluEffect s op a b) s.raised) :=
  complete_bind_last (regPair_eq a b) rfl

theorem branchIf_eq (taken : Bool) (a : Byte) (s : State) :
    branchIf taken 2 a s = .next ((if taken then indexFault a else none).elim (branchEffect s taken a) s.raised) := by
  cases taken with
  | true => exact complete_bind_last (regIdx_eq a) rfl
  | false => rfl

theorem execPop_eq (a : Byte) (s : State) :
    execPop a s = .next ((firstFault s (.pop a)).elim (effect s (.pop a)) s.raised) := by
  simp only [firstFault, ← popped_r7_eq_iff]
  exact complete_bind (regIdx_eq a) (complete_bind_last (spInc_eq_elim (popped s (regOf a))) rfl)

/-- Every instruction raises its first failing check from the state before it, or has its effect (R120, R217, R218). -/
theorem exec_eq (i : Instr) (s : State) : exec i s = .next ((firstFault s i).elim (effect s i) s.raised) := by
  cases i with
  | hlt => rfl
  | ldi a imm => exact complete_bind_last (regIdx_eq a) rfl
  | prn a | jmp a => exact complete_bind_last (regIdx_eq a) rfl
  | push a => exact complete_bind (regIdx_eq a) (complete_bind_last (spDec_eq_elim s) rfl)
  | pop a => exact execPop_eq a s
  | call a =>
    exact complete_bind (regIdx_eq a)
      (complete_bind (spDec_eq_elim s) (complete_bind_last (returnAddress_eq_elim s.pc) rfl))
  | ret => exact complete_bind_last (spInc_eq_elim s) rfl
  | jeq a => exact branchIf_eq (flagE s.fl) a s
  | jne a =>
    have hfault : firstFault s (.jne a) = if !flagE s.fl then indexFault a else none := by
      change (if flagE s.fl then none else indexFault a) = _
      cases flagE s.fl <;> rfl
    rw [hfault]
    exact branchIf_eq (!flagE s.fl) a s
  | mul a b | add a b | cmp a b | and a b | or a b => exact aluInstr_eq _ a b s

theorem exec_of_firstFault {i : Instr} {s : State} {c : Cause} (h : firstFault s i = some c) :
    exec i s = .next (s.raised c) := by
  rw [exec_eq, h]; rfl

theorem exec_of_no_fault {i : Instr} {s : State} (h : firstFault s i = none) : exec i s = .next (effect s i) := by
  rw [exec_eq, h]; rfl

/-- Everything an instruction can do. -/
theorem exec_inversion {i : Instr} {s t : State} (h : exec i s = .next t) :
    (∃ c, firstFault s i = some c ∧ t = s.raised c) ∨ (firstFault s i = none ∧ t = effect s i) := by
  rw [exec_eq] at h
  cases hfault : firstFault s i with
  | some c => rw [hfault] at h; cases h; exact .inl ⟨c, rfl, rfl⟩
  | none => rw [hfault] at h; cases h; exact .inr ⟨rfl, rfl⟩

/-! ### The run state of an effect -/

@[simp] theorem branchEffect_run (s : State) (taken : Bool) (a : Byte) : (branchEffect s taken a).run = s.run := by
  cases taken <;> rfl

/-- No instruction but HLT has an effect on `run` (R127). -/
theorem effect_run {i : Instr} (hi : i ≠ .hlt) (s : State) : (effect s i).run = s.run := by
  cases i with
  | hlt => exact absurd rfl hi
  | jeq a | jne a => exact branchEffect_run ..
  | mul a b | add a b | cmp a b | and a b | or a b => exact writeBack_run ..
  | _ => rfl

/-! ### Well-formed instructions (R94) -/

/-- The cause is an OutOfBounds(RegIndex). -/
def Cause.IsRegIndex (c : Cause) : Prop := ∃ v, c = .outOfBounds .regIndex v

theorem indexFault_of_regByteOk {b : Byte} (h : regByteOk b = true) : indexFault b = none := by
  have hle : b.toNat ≤ 7 := of_decide_eq_true h
  exact if_neg (by omega)

/-- With every register operand in range, the first failing check is not an index check. -/
theorem not_isRegIndex_of_wf {i : Instr} (hwf : i.wf = true) {s : State} {c : Cause} (h : firstFault s i = some c) :
    ¬ c.IsRegIndex := by
  rintro ⟨v, rfl⟩
  cases i with
  | hlt => cases h
  | ret => simp [firstFault] at h
  | mul a b | add a b | cmp a b | and a b | or a b =>
    obtain ⟨ha, hb⟩ := Bool.and_eq_true_iff.mp hwf
    simp [firstFault, indexFault_of_regByteOk ha, indexFault_of_regByteOk hb] at h
  | ldi a _ | prn a | push a | pop a | call a | jmp a | jeq a | jne a =>
    simp [firstFault, indexFault_of_regByteOk hwf, Option.or_eq_some_iff] at h

end Sys2Proof.Machine

namespace Sys2Proof.Proofs

open Sys2Proof.Machine

/-! ### The obligations of the exception order and the run state -/

/-- Settles O28: `exec_eq`, and that only HLT's effect touches `run`. -/
theorem firstFailingCheckDecides : Obligations.FirstFailingCheckDecides := by
  intro i s
  refine ⟨fun c hc => exec_of_firstFault hc, fun hnone => ⟨effect s i, exec_of_no_fault hnone, fun hi => ?_, ?_⟩⟩
  · exact effect_run hi s
  · rintro rfl
    rfl

/-- Settles O29: a fault is the instruction's first failing check, which is not an index check. -/
theorem wellFormedInstructionsPassTheIndexCheck : Obligations.WellFormedInstructionsPassTheIndexCheck := by
  intro i s t v hwf hrun hexec ht
  obtain ⟨c, hc, rfl⟩ | ⟨-, rfl⟩ := exec_inversion hexec
  · exact not_isRegIndex_of_wf hwf hc ⟨v, Run.faulted.inj ht⟩
  · by_cases hi : i = .hlt
    · subst hi; cases ht
    · rw [effect_run hi, hrun] at ht; cases ht

/-- Settles O32, by the three ways an instruction ends. -/
theorem runStateChangesOnlyByHltOrFault : Obligations.RunStateChangesOnlyByHltOrFault := by
  intro i s t hexec
  obtain ⟨hi, rfl⟩ | ⟨hi, hkeep, -⟩ | ⟨-, hfault⟩ := exec_cases hexec
  · exact .inl ⟨hi, rfl⟩
  · exact .inr (.inl ⟨hi, hkeep⟩)
  · exact .inr (.inr hfault)

end Sys2Proof.Proofs

/-! PROOFS. The frames: O30, O31, O33 and O34, each read off the effect of the instruction, since a raise changes `run`
alone. -/

namespace Sys2Proof.Machine

theorem orElse_eq_some_iff {x y : Option Cause} {c : Cause} :
    (x <|> y) = some c ↔ x = some c ∨ (x = none ∧ y = some c) := by
  cases x <;> simp

theorem orElse_eq_none_iff {x y : Option Cause} : (x <|> y) = none ↔ x = none ∧ y = none := by
  cases x <;> simp

/-! ### Registers -/

/-- The registers whose rule names them as written: the destination operand, and R7 in the stack instructions. -/
def MayWrite (r : Reg) : Instr → Prop
  | .ldi a _ | .mul a _ | .add a _ | .and a _ | .or a _ => regByte r = a
  | .push _ | .call _ | .ret => r = .r7
  | .pop a => regByte r = a ∨ r = .r7
  | .prn _ | .hlt | .cmp _ _ | .jmp _ | .jeq _ | .jne _ => False

/-- Behind a passed index check, a register whose byte is not the operand is not the one looked up. -/
theorem ne_regOf {a : Byte} {r : Reg} (ha : indexFault a = none) (h : regByte r ≠ a) : r ≠ regOf a := by
  rintro rfl
  exact h (indexFault_eq_none_iff.mp ha).symm

@[simp] theorem branchEffect_x (s : State) (taken : Bool) (a : Byte) : (branchEffect s taken a).x = s.x := by
  cases taken <;> rfl

theorem effect_get {i : Instr} {s : State} {r : Reg} (hnone : firstFault s i = none) (h : ¬ MayWrite r i) :
    (effect s i).x.get r = s.x.get r := by
  cases i with
  | prn | hlt | cmp | jmp => rfl
  | jeq a | jne a => exact congrArg (Regs.get · r) (branchEffect_x ..)
  | ldi a imm => exact Regs.get_set_ne _ _ (ne_regOf hnone h)
  | push | call | ret => exact Regs.get_set_ne _ _ h
  | pop a =>
    obtain ⟨ha, -⟩ := orElse_eq_none_iff.mp hnone
    obtain ⟨hdst, hsp⟩ := not_or.mp h
    exact (Regs.get_set_ne _ _ hsp).trans (Regs.get_set_ne _ _ (ne_regOf ha hdst))
  | mul a b | add a b | and a b | or a b =>
    obtain ⟨ha, -⟩ := orElse_eq_none_iff.mp hnone
    exact Regs.get_set_ne _ _ (ne_regOf ha h)

theorem get_eq_of_exec {i : Instr} {s t : State} {r : Reg} (hexec : exec i s = .next t) (h : ¬ MayWrite r i) :
    t.x.get r = s.x.get r := by
  obtain ⟨c, -, rfl⟩ | ⟨hnone, rfl⟩ := exec_inversion hexec
  · rfl
  · exact effect_get hnone h

/-! ### FL -/

@[simp] theorem branchEffect_fl (s : State) (taken : Bool) (a : Byte) : (branchEffect s taken a).fl = s.fl := by
  cases taken <;> rfl

theorem effect_fl {i : Instr} (hi : i.mnemonic ≠ .cmp) (s : State) : (effect s i).fl = s.fl := by
  cases i with
  | cmp => exact absurd rfl hi
  | jeq a | jne a => exact branchEffect_fl ..
  | _ => rfl

/-- CMP leaves exactly one of the three flags set. -/
theorem effect_fl_of_cmp {i : Instr} (hi : i.mnemonic = .cmp) (s : State) :
    (effect s i).fl = 0x01#8 ∨ (effect s i).fl = 0x02#8 ∨ (effect s i).fl = 0x04#8 := by
  cases i with
  | cmp a b => exact (compareFlags_cases _ _).imp And.right (.imp And.right And.right)
  | _ => cases hi

/-! ### Memory -/

@[simp] theorem branchEffect_mem (s : State) (taken : Bool) (a : Byte) : (branchEffect s taken a).mem = s.mem := by
  cases taken <;> rfl

/-- The instruction stores a byte: PUSH and CALL. -/
def StoresByte (i : Instr) : Prop := i.mnemonic = .push ∨ i.mnemonic = .call

theorem effect_mem {i : Instr} (hi : ¬ StoresByte i) (s : State) : (effect s i).mem = s.mem := by
  cases i with
  | push => exact absurd (.inl rfl) hi
  | call => exact absurd (.inr rfl) hi
  | jeq a | jne a => exact branchEffect_mem ..
  | _ => rfl

/-- PUSH and CALL store one byte, at the decremented stack pointer. -/
theorem effect_mem_of_stores {i : Instr} (hi : StoresByte i) (s : State) :
    ∃ v, (effect s i).mem = s.mem.write (s.x.r7 - 1#8).toNat v := by
  cases i with
  | push => exact ⟨_, rfl⟩
  | call => exact ⟨_, rfl⟩
  | _ => simp [StoresByte, Instr.mnemonic] at hi

/-- The stack-pointer controller's decrement: it answers exactly when the check of PUSH and CALL passes (R24). -/
theorem spDec_eq_ok_iff {s : State} {sp : Byte} : spDec s = .ok sp ↔ s.x.r7 ≠ 0x00#8 ∧ sp = s.x.r7 - 1#8 := by
  rw [spDec_eq]
  split
  · next h => simp [h]
  · next h => simp [h, eq_comm]

/-- With R7 at 0, PUSH and CALL raise. -/
theorem firstFault_ne_none_of_stores {i : Instr} (hi : StoresByte i) {s : State} (h : s.x.r7 = 0x00#8) :
    firstFault s i ≠ none := by
  cases i with
  | push => simp [firstFault, h]
  | call => simp [firstFault, h]
  | _ => simp [StoresByte, Instr.mnemonic] at hi

/-- PUSH and CALL leave every address but the one the stack-pointer controller gives, if it gives one. -/
theorem read_eq_of_exec_stores {i : Instr} (hi : StoresByte i) {s t : State} (h : exec i s = .next t) {d : Nat}
    (hd : ∀ sp, spDec s = .ok sp → d ≠ sp.toNat) : t.mem.read d = s.mem.read d := by
  obtain ⟨c, -, rfl⟩ | ⟨hnone, rfl⟩ := exec_inversion h
  · rfl
  · have hr7 : s.x.r7 ≠ 0x00#8 := fun h0 => firstFault_ne_none_of_stores hi h0 hnone
    obtain ⟨v, hmem⟩ := effect_mem_of_stores hi s
    rw [hmem, Memory.read_write_ne _ _ (hd _ (spDec_eq_ok_iff.mpr ⟨hr7, rfl⟩))]

end Sys2Proof.Machine

namespace Sys2Proof.Proofs

open Sys2Proof.Machine

/-! ### The obligations of the frames -/

/-- Settles O30: each list holds instructions that write only the registers it names. -/
theorem registersChangeOnlyWhereNamed : Obligations.RegistersChangeOnlyWhereNamed := by
  intro s t a b r
  simp only [List.forall_mem_cons, List.not_mem_nil, false_imp_iff, implies_true, and_true]
  refine ⟨?none, ?destination, ?stackPointer, fun h hdst hsp => get_eq_of_exec h (not_or.mpr ⟨hdst, hsp⟩)⟩
  case none =>
    have frame {i : Instr} (hi : ¬ MayWrite r i) (h : exec i s = .next t) := get_eq_of_exec h hi
    exact ⟨frame id, frame id, frame id, frame id, frame id, frame id⟩
  case destination =>
    exact ⟨get_eq_of_exec, get_eq_of_exec, get_eq_of_exec, get_eq_of_exec, get_eq_of_exec⟩
  case stackPointer => exact ⟨get_eq_of_exec, get_eq_of_exec, get_eq_of_exec⟩

/-- Settles O31: a raise keeps FL, and so does the effect of every instruction but CMP. -/
theorem onlyCmpWritesFlags : Obligations.OnlyCmpWritesFlags := by
  intro i s t hexec
  obtain ⟨c, -, rfl⟩ | ⟨-, rfl⟩ := exec_inversion hexec
  · exact ⟨fun _ => rfl, fun _ => .inl ⟨c, rfl⟩⟩
  · exact ⟨fun hi => effect_fl hi s, fun hi => .inr (effect_fl_of_cmp hi s)⟩

/-- Settles O33: a raise keeps memory, and so does the effect of every instruction that does not store. -/
theorem nonStoringFormsLeaveMemory : Obligations.NonStoringFormsLeaveMemory := by
  intro i s t hpush hcall hexec d
  obtain ⟨c, -, rfl⟩ | ⟨-, rfl⟩ := exec_inversion hexec
  · rfl
  · rw [effect_mem (not_or.mpr ⟨hpush, hcall⟩)]

/-- Settles O34: the byte stored stands at the address the stack-pointer controller gives; where it gives none, they
raise. -/
theorem storingFormsChangeOnlyTheStackSlot : Obligations.StoringFormsChangeOnlyTheStackSlot := by
  intro s t a i hi hexec
  have hstores : StoresByte i := by
    simp only [List.mem_cons, List.not_mem_nil, or_false] at hi
    exact hi.imp (congrArg Instr.mnemonic) (congrArg Instr.mnemonic)
  refine ⟨fun sp hsp d hd => ?slot, fun c hc d => ?noSlot⟩
  case slot =>
    refine read_eq_of_exec_stores hstores hexec fun sp' hsp' => ?_
    rw [hsp] at hsp'
    cases hsp'
    exact hd
  case noSlot =>
    refine read_eq_of_exec_stores hstores hexec fun sp hsp => ?_
    rw [hc] at hsp
    cases hsp

end Sys2Proof.Proofs

/-! PROOFS. What every step keeps: O22 (the invariant) with its base cases O23 and O24, and O27 (FL bits 7:1 are
unobservable). -/

namespace Sys2Proof.Machine

/-! ### The invariant (R26, R27, R60) -/

/-- An advance of an instruction that ends at or below 255 gives at most 256, and a redirect gives a byte (R125, R126). -/
theorem effect_pc_le {i : Instr} {s : State} (hend : s.pc + i.length ≤ 256) : (effect s i).pc ≤ 256 := by
  have hbyte : ∀ v : Byte, v.toNat ≤ 256 := fun v => v.isLt.le
  have hbranch : ∀ taken a, s.pc + 2 ≤ 256 → (branchEffect s taken a).pc ≤ 256 := by
    intro taken a h
    cases taken with
    | true => exact hbyte _
    | false => exact h
  simp only [Instr.length] at hend
  cases i with
  | hlt => exact (Nat.le_add_right ..).trans hend
  | jmp | call | ret => exact hbyte _
  | jeq a | jne a => exact hbranch _ a (by simpa [Instr.mnemonic] using hend)
  | mul a b | add a b | cmp a b | and a b | or a b => simpa [effect, aluEffect, Instr.mnemonic] using hend
  | ldi | prn | push | pop => simpa [effect, pushAt, popped, Instr.mnemonic] using hend

/-- A store, if there is one, keeps memory canonical. -/
theorem effect_mem_wf {s : State} (h : s.mem.wf) (i : Instr) : (effect s i).mem.wf := by
  by_cases hi : StoresByte i
  · obtain ⟨v, hmem⟩ := effect_mem_of_stores hi s
    rw [hmem]
    exact Memory.write_wf v h (BitVec.isLt _)
  · rw [effect_mem hi]
    exact h

theorem effect_inv {i : Instr} {s : State} (h : s.Inv) (hend : s.pc + i.length ≤ 256) : (effect s i).Inv := by
  obtain ⟨hmem, -, hfl⟩ := h
  refine ⟨effect_mem_wf hmem i, effect_pc_le hend, ?_⟩
  by_cases hi : i.mnemonic = .cmp
  · exact .inr (effect_fl_of_cmp hi s)
  · rw [effect_fl hi]
    exact hfl

/-! ### FL bits 7:1 -/

/-- The second state is the first but for FL, and bit 0 of FL agrees. -/
def AgreeButFlags (s s' : State) : Prop := ∃ fl : Byte, fl.getLsbD 0 = s.fl.getLsbD 0 ∧ s' = { s with fl := fl }

/-- The checks look at no bit of FL but bit 0. -/
theorem firstFault_with_fl {s : State} {fl : Byte} (h : flagE fl = flagE s.fl) (i : Instr) :
    firstFault { s with fl := fl } i = firstFault s i := by
  cases i with
  | jeq a => exact congrArg (fun taken : Bool => if taken then indexFault a else none) h
  | jne a => exact congrArg (fun taken : Bool => if taken then none else indexFault a) h
  | _ => rfl

theorem branchEffect_with_fl (s : State) (fl : Byte) (taken : Bool) (a : Byte) :
    branchEffect { s with fl := fl } taken a = { branchEffect s taken a with fl := fl } := by
  cases taken <;> rfl

/-- The effect of an instruction passes no bit of FL but bit 0 on to anything but FL. -/
theorem effect_agree {s : State} {fl : Byte} (h : flagE fl = flagE s.fl) (i : Instr) :
    AgreeButFlags (effect s i) (effect { s with fl := fl } i) := by
  cases i with
  | cmp a b => exact ⟨(effect s (.cmp a b)).fl, rfl, rfl⟩
  | jeq a | jne a =>
    refine ⟨fl, h.trans (congrArg flagE (branchEffect_fl ..).symm), ?_⟩
    rw [effect, effect, ← branchEffect_with_fl, h]
  | _ => exact ⟨fl, h, rfl⟩

theorem exec_agree {s s' t : State} {i : Instr} (hs : AgreeButFlags s s') (h : exec i s = .next t) :
    ∃ t', exec i s' = .next t' ∧ AgreeButFlags t t' := by
  obtain ⟨fl, hfl, rfl⟩ := hs
  obtain ⟨c, hc, rfl⟩ | ⟨hnone, rfl⟩ := exec_inversion h
  · rw [← firstFault_with_fl hfl] at hc
    exact ⟨_, exec_of_firstFault hc, fl, hfl, rfl⟩
  · rw [← firstFault_with_fl hfl] at hnone
    exact ⟨_, exec_of_no_fault hnone, effect_agree hfl i⟩

/-- The fetch does not look at FL, and the instruction only at bit 0. -/
theorem step_agree {s s' t : State} (hs : AgreeButFlags s s') (h : step s = .next t) :
    ∃ t', step s' = .next t' ∧ AgreeButFlags t t' := by
  obtain ⟨fl, hfl, rfl⟩ := id hs
  have hfetch : fetchInstr { s with fl := fl } = fetchInstr s := rfl
  obtain ⟨hrun, ⟨c, hc, rfl⟩ | ⟨i, hi, hexec⟩⟩ := step_cases h
  · exact ⟨_, step_of_fetch_error hrun (hfetch.trans hc), fl, hfl, rfl⟩
  · rw [step_of_fetch_ok (s := { s with fl := fl }) hrun (hfetch.trans hi)]
    exact exec_agree hs hexec

/-- A run of `n + 1` steps that answers a next state is a step and a run of `n`. -/
theorem run_succ_eq_next_iff {n : Nat} {s t : State} :
    Host.Core.run core (n + 1) s = .next t ↔ ∃ u, step s = .next u ∧ Host.Core.run core n u = .next t := by
  have hstep : core.step s = step s := rfl
  cases h : step s with
  | next u => simp [Host.Core.run, hstep, h]
  | fault r => simp [Host.Core.run, hstep, h]
  | refused r => simp [Host.Core.run, hstep, h]

theorem run_agree {n : Nat} {s s' t : State} (hs : AgreeButFlags s s') (h : Host.Core.run core n s = .next t) :
    ∃ t', Host.Core.run core n s' = .next t' ∧ AgreeButFlags t t' := by
  induction n generalizing s s' with
  | zero =>
    cases h
    exact ⟨s', rfl, hs⟩
  | succ n ih =>
    obtain ⟨u, hstep, hrun⟩ := run_succ_eq_next_iff.mp h
    obtain ⟨u', hstep', hu⟩ := step_agree hs hstep
    obtain ⟨t', hrun', ht⟩ := ih hu hrun
    exact ⟨t', run_succ_eq_next_iff.mpr ⟨u', hstep', hrun'⟩, ht⟩

end Sys2Proof.Machine

namespace Sys2Proof.Proofs

open Sys2Proof.Machine

/-! ### The obligations of what every step keeps -/

/-- Settles O22: a raise changes `run` alone, and the effect of an instruction that was fetched keeps each part. -/
theorem stepKeepsInvariant : Obligations.StepKeepsInvariant := by
  intro s t hinv hstep
  obtain ⟨-, ⟨c, -, rfl⟩ | ⟨i, hfetch, hexec⟩⟩ := step_cases hstep
  · exact hinv
  · obtain ⟨c, -, rfl⟩ | ⟨-, rfl⟩ := exec_inversion hexec
    · exact hinv
    · obtain ⟨-, hend⟩ := opcode_and_end_of_fetchInstr hfetch
      exact effect_inv hinv hend

/-- Settles O23: reset lists no cell, and its `pc` and FL are 0. -/
theorem resetMeetsInvariant : Obligations.ResetMeetsInvariant :=
  ⟨reset_mem_wf, Nat.zero_le _, .inl rfl⟩

/-- Settles O24: a load changes nothing of reset but the memory, which stays canonical. -/
theorem loadedStateMeetsInvariant : Obligations.LoadedStateMeetsInvariant := by
  intro image s hload
  obtain ⟨-, -, rfl⟩ := loadImage_eq_ok_iff.mp hload
  exact ⟨Memory.writeBytes_wf 0 _ reset_mem_wf, Nat.zero_le _, .inl rfl⟩

/-- Settles O27, by induction on the length of the run. -/
theorem flagsBeyondEqualAreUnobservable : Obligations.FlagsBeyondEqualAreUnobservable := by
  intro n s t fl hfl hrun
  obtain ⟨t', hrun', fl', hfl', rfl⟩ := run_agree ⟨fl, hfl, rfl⟩ hrun
  exact ⟨fl', hfl', hrun'⟩

end Sys2Proof.Proofs

/-! PROOFS. O25: every stop is explained by the state it leaves. Each fault of the fetch and each check of an instruction
fits its row of the exception table (spec/60_exceptions.md sections 1 and 2). -/

namespace Sys2Proof.Machine

/-! ### The faults of the fetch (R121 to R123) -/

/-- Why a fetch fails: nothing to fetch, no opcode, or an instruction that runs past address 255. -/
theorem fetchInstr_error_cases {s : State} {c : Cause} (h : fetchInstr s = .error c) :
    (255 < s.pc ∧ c = .outOfBounds .fetch s.pc) ∨
    (s.pc ≤ 255 ∧ mnemonicOf? (s.mem.read s.pc) = none ∧ c = .decodeError (s.mem.read s.pc)) ∨
    (∃ m, s.pc ≤ 255 ∧ s.mem.read s.pc = opcodeOf m ∧ 256 < s.pc + lengthOf m ∧ c = .outOfBounds .operand 256) := by
  have same {d : Cause} (hd : fetchInstr s = .error d) : c = d := Except.error.inj (h.symm.trans hd)
  rcases Nat.lt_or_ge 255 s.pc with hpc | hpc
  · refine .inl ⟨hpc, same ?_⟩
    simp [fetchInstr, fetchWindow_eq_nil hpc, decode, rejectCause]
  · cases hm : mnemonicOf? (s.mem.read s.pc) with
    | none => exact .inr (.inl ⟨hpc, rfl, same (fetchInstr_of_unknown_opcode hpc hm)⟩)
    | some m =>
      have hop := mnemonicOf?_eq_some.mp hm
      rcases Nat.lt_or_ge 256 (s.pc + lengthOf m) with hend | hend
      · exact .inr (.inr ⟨m, hpc, hop, hend, same (fetchInstr_of_operand_past_the_end hop hpc hend)⟩)
      · obtain ⟨i, hi, -⟩ := exists_fetchInstr_eq_ok hop hend
        rw [hi] at h; cases h

theorem causeFits_of_fetch_error {s : State} (hpc : s.pc ≤ 256) {c : Cause} (h : fetchInstr s = .error c) :
    causeFits s c = true := by
  obtain ⟨hgt, rfl⟩ | ⟨hle, hop, rfl⟩ | ⟨m, hle, hop, hend, rfl⟩ := fetchInstr_error_cases h
  · exact decide_eq_true ⟨by omega, by omega⟩
  · exact decide_eq_true ⟨hle, rfl, hop⟩
  · have hlegal : mnemonicOf? (s.mem.read s.pc) ≠ none := by
      rw [mnemonicOf?_eq_some.mpr hop]
      exact nofun
    have hlen : opcodeLength (s.mem.read s.pc) = lengthOf m := by rw [hop]; rfl
    have hthree := lengthOf_le_three m
    exact decide_eq_true ⟨rfl, hlegal, by omega⟩

/-! ### The checks of an instruction, one lemma for each (R212, R218) -/

theorem indexFault_eq_some_iff {b : Byte} {c : Cause} :
    indexFault b = some c ↔ 8 ≤ b.toNat ∧ c = .outOfBounds .regIndex b.toNat := by
  unfold indexFault
  split
  · next h => simp [Nat.succ_le_of_lt h, eq_comm]
  · next h => simp [show ¬ 8 ≤ b.toNat by omega]

theorem toNat_le_of_indexFault {b : Byte} (h : indexFault b = none) : b.toNat ≤ 7 := by
  rw [indexFault_eq_none_iff.mp h]
  exact toNat_regByte_le _

section Checks

variable {s : State} {c : Cause} (hend : s.pc + opcodeLength (s.mem.read s.pc) ≤ 256)

include hend

/-- Operand a's index, which the instruction looks up. -/
theorem causeFits_of_indexFault_a (hlooks : looksUpA s.fl (s.mem.read s.pc) = true)
    (h : indexFault (s.mem.read (s.pc + 1)) = some c) : causeFits s c = true := by
  obtain ⟨hge, rfl⟩ := indexFault_eq_some_iff.mp h
  have hbyte := (s.mem.read (s.pc + 1)).isLt
  exact decide_eq_true ⟨hend, by omega, by omega, .inl ⟨rfl, hlooks⟩⟩

/-- Operand b's index, which the instruction looks up behind an operand a in range. -/
theorem causeFits_of_indexFault_b (hlooks : looksUpB (s.mem.read s.pc) = true)
    (ha : indexFault (s.mem.read (s.pc + 1)) = none) (h : indexFault (s.mem.read (s.pc + 2)) = some c) :
    causeFits s c = true := by
  obtain ⟨hge, rfl⟩ := indexFault_eq_some_iff.mp h
  have hbyte := (s.mem.read (s.pc + 2)).isLt
  exact decide_eq_true ⟨hend, by omega, by omega, .inr ⟨toNat_le_of_indexFault ha, rfl, hlooks⟩⟩

/-- Both indices of an ALU instruction, in their order. -/
theorem causeFits_of_indexFaults (hop : looksUpB (s.mem.read s.pc) = true)
    (hlooks : looksUpA s.fl (s.mem.read s.pc) = true)
    (h : (indexFault (s.mem.read (s.pc + 1)) <|> indexFault (s.mem.read (s.pc + 2))) = some c) :
    causeFits s c = true := by
  obtain ha | ⟨ha, hb⟩ := orElse_eq_some_iff.mp h
  · exact causeFits_of_indexFault_a hend hlooks ha
  · exact causeFits_of_indexFault_b hend hop ha hb

/-- The decrement of PUSH and CALL. -/
theorem causeFits_of_decrement (hop : s.mem.read s.pc = 0x45#8 ∨ s.mem.read s.pc = 0x50#8)
    (ha : indexFault (s.mem.read (s.pc + 1)) = none) (hr7 : s.x.r7 = 0x00#8) :
    causeFits s (.outOfBounds .stackPointer (-1)) = true :=
  decide_eq_true ⟨hend, .inl ⟨rfl, hr7, hop, toNat_le_of_indexFault ha⟩⟩

/-- The increment of RET. -/
theorem causeFits_of_increment_ret (hop : s.mem.read s.pc = 0x11#8) (hr7 : s.x.r7 = 0xFF#8) :
    causeFits s (.outOfBounds .stackPointer 256) = true :=
  decide_eq_true ⟨hend, .inr (.inl ⟨rfl, hr7, hop⟩)⟩

/-- The increment of POP: of R7, or of the popped byte when the operand is R7 (log 13). -/
theorem causeFits_of_increment_pop (hop : s.mem.read s.pc = 0x46#8) (ha : indexFault (s.mem.read (s.pc + 1)) = none)
    (h : (s.mem.read (s.pc + 1) ≠ 0x07#8 ∧ s.x.r7 = 0xFF#8) ∨
      (s.mem.read (s.pc + 1) = 0x07#8 ∧ s.mem.read s.x.r7.toNat = 0xFF#8)) :
    causeFits s (.outOfBounds .stackPointer 256) = true := by
  have hle := toNat_le_of_indexFault ha
  obtain ⟨hne, hr7⟩ | ⟨h7, hpopped⟩ := h
  · have h6 : (s.mem.read (s.pc + 1)).toNat ≤ 6 := by
      have : (s.mem.read (s.pc + 1)).toNat ≠ 7 := fun h => hne (BitVec.eq_of_toNat_eq h)
      omega
    exact decide_eq_true ⟨hend, .inr (.inr (.inl ⟨rfl, hr7, hop, h6⟩))⟩
  · exact decide_eq_true ⟨hend, .inr (.inr (.inr ⟨rfl, hpopped, hop, h7⟩))⟩

/-- The return address of CALL, which ends at or below 255 and so stands at 254. -/
theorem causeFits_of_return_address (hop : s.mem.read s.pc = 0x50#8) (ha : indexFault (s.mem.read (s.pc + 1)) = none)
    (hr7 : s.x.r7 ≠ 0x00#8) (h : 255 < s.pc + 2) :
    causeFits s (.outOfBounds .returnAddress ((s.pc + 2 : Nat) : Int)) = true := by
  have hlen : opcodeLength (s.mem.read s.pc) = 2 := by rw [hop]; rfl
  exact decide_eq_true ⟨by omega, by omega, hop, toNat_le_of_indexFault ha, hr7⟩

end Checks

/-! ### The first failing check fits -/

/-- For an instruction that was fetched, the first failing check is the one its row of the table names, read at the bytes
in memory. -/
theorem causeFits_of_firstFault {s : State} {i : Instr} {c : Cause} (hend : s.pc + i.length ≤ 256)
    (hbytes : EncodedAtPc s i) (h : firstFault s i = some c) : causeFits s c = true := by
  have hop : s.mem.read s.pc = opcodeOf i.mnemonic := hbytes 0 _ rfl
  replace hend : s.pc + opcodeLength (s.mem.read s.pc) ≤ 256 := by rwa [hop]
  cases i with
  | hlt => cases h
  | ldi a _ | prn a | jmp a =>
    obtain rfl := hbytes 1 _ rfl
    exact causeFits_of_indexFault_a hend (by rw [hop]; rfl) h
  | mul a b | add a b | cmp a b | and a b | or a b =>
    obtain rfl := hbytes 1 _ rfl
    obtain rfl := hbytes 2 _ rfl
    exact causeFits_of_indexFaults hend (by rw [hop]; rfl) (by rw [hop]; rfl) h
  | jeq a =>
    obtain rfl := hbytes 1 _ rfl
    obtain ⟨htaken, ha⟩ := Option.ite_none_right_eq_some.mp h
    exact causeFits_of_indexFault_a hend (by rw [hop]; exact decide_eq_true (.inr (.inl ⟨rfl, htaken⟩))) ha
  | jne a =>
    obtain rfl := hbytes 1 _ rfl
    obtain ⟨hclear, ha⟩ := Option.ite_none_left_eq_some.mp h
    refine causeFits_of_indexFault_a hend ?_ ha
    rw [hop]
    exact decide_eq_true (.inr (.inr ⟨rfl, Bool.eq_false_of_not_eq_true hclear⟩))
  | push a =>
    obtain rfl := hbytes 1 _ rfl
    obtain ha | ⟨ha, hsp⟩ := orElse_eq_some_iff.mp h
    · exact causeFits_of_indexFault_a hend (by rw [hop]; rfl) ha
    · obtain ⟨hr7, ⟨⟩⟩ := Option.ite_none_right_eq_some.mp hsp
      exact causeFits_of_decrement hend (.inl hop) ha hr7
  | pop a =>
    obtain rfl := hbytes 1 _ rfl
    obtain ha | ⟨ha, hsp⟩ := orElse_eq_some_iff.mp h
    · exact causeFits_of_indexFault_a hend (by rw [hop]; rfl) ha
    · obtain ⟨hover, ⟨⟩⟩ := Option.ite_none_right_eq_some.mp hsp
      exact causeFits_of_increment_pop hend hop ha hover
  | call a =>
    obtain rfl := hbytes 1 _ rfl
    obtain ha | ⟨ha, hchecks⟩ := orElse_eq_some_iff.mp h
    · exact causeFits_of_indexFault_a hend (by rw [hop]; rfl) ha
    · obtain hsp | ⟨hsp, hret⟩ := orElse_eq_some_iff.mp hchecks
      · obtain ⟨hr7, ⟨⟩⟩ := Option.ite_none_right_eq_some.mp hsp
        exact causeFits_of_decrement hend (.inr hop) ha hr7
      · obtain ⟨hover, ⟨⟩⟩ := Option.ite_none_right_eq_some.mp hret
        have hr7 : s.x.r7 ≠ 0x00#8 := fun h0 => by rw [if_pos h0] at hsp; cases hsp
        exact causeFits_of_return_address hend hop ha hr7 hover
  | ret =>
    obtain ⟨hr7, ⟨⟩⟩ := Option.ite_none_right_eq_some.mp h
    exact causeFits_of_increment_ret hend hop hr7

end Sys2Proof.Machine

namespace Sys2Proof.Proofs

open Sys2Proof.Machine

/-! ### The obligation of the stops -/

/-- Settles O25: a fault is one of the fetch or the first failing check of the instruction fetched, and leaves the state
it is read from; HLT leaves `pc` at itself. -/
theorem everyStopIsExplained : Obligations.EveryStopIsExplained := by
  intro s t hinv hrun hstep
  obtain ⟨-, hpc, -⟩ := hinv
  obtain ⟨-, ⟨c, hc, rfl⟩ | ⟨i, hfetch, hexec⟩⟩ := step_cases hstep
  · exact causeFits_of_fetch_error hpc hc
  · obtain ⟨hop, hend⟩ := opcode_and_end_of_fetchInstr hfetch
    obtain ⟨c, hc, rfl⟩ | ⟨-, rfl⟩ := exec_inversion hexec
    · exact causeFits_of_firstFault hend (encodedAtPc_of_fetchInstr hfetch) hc
    · by_cases hi : i = .hlt
      · subst hi
        exact decide_eq_true ⟨Nat.le_of_lt_succ hend, hop⟩
      · have hkeep : (effect s i).run = .running := (effect_run hi s).trans hrun
        simp [State.stopExplained, hkeep]

end Sys2Proof.Proofs

/-! PROOFS. Memory as data, and the load: O26, O1, O3 and O4 (spec/20_memory.md section 1, spec/10_state.md sections 7
and 8). -/

namespace Sys2Proof.Machine

/-! ### A canonical memory lists exactly its bytes that are not the unlisted one -/

/-- An address that does not read as the unlisted byte is listed, with the byte it reads as. -/
theorem Memory.mem_of_read_ne {m : Memory} {a : Nat} (h : m.read a ≠ Config.unlistedByte) : (a, m.read a) ∈ m := by
  induction m with
  | nil => exact absurd rfl h
  | cons c m ih =>
    obtain ⟨b, w⟩ := c
    unfold Memory.read at h ⊢
    split
    · next hab => rw [hab]; exact List.mem_cons_self
    · next hab =>
      rw [if_neg hab] at h
      exact List.mem_cons_of_mem _ (ih h)

/-- With addresses strictly rising, a listed cell is what its address reads as. -/
theorem Memory.read_of_mem {m : Memory} (h : m.Pairwise (fun c d => c.1 < d.1)) {c : Host.Cell} (hc : c ∈ m) :
    m.read c.1 = c.2 := by
  induction m with
  | nil => cases hc
  | cons d m ih =>
    obtain ⟨hhead, htail⟩ := List.pairwise_cons.mp h
    obtain rfl | hc := List.mem_cons.mp hc
    · exact if_pos rfl
    · exact (if_neg (hhead c hc).ne').trans (ih htail hc)

/-- The cells of a canonical memory, by its reads alone. -/
theorem Memory.mem_iff {m : Memory} (h : m.wf) (c : Host.Cell) :
    c ∈ m ↔ c.1 < Config.memSize ∧ c.2 ≠ Config.unlistedByte ∧ m.read c.1 = c.2 := by
  obtain ⟨hrising, hcells⟩ := h
  constructor
  · intro hc
    obtain ⟨haddr, hbyte⟩ := hcells c hc
    exact ⟨haddr, hbyte, Memory.read_of_mem hrising hc⟩
  · rintro ⟨-, hbyte, hread⟩
    rw [← hread] at hbyte
    have hmem := Memory.mem_of_read_ne hbyte
    rwa [hread] at hmem

/-! ### What a load refuses (R254, D15) -/

theorem loadImage_refused {image : List Nat} (h : 256 < image.length ∨ ∃ v ∈ image, 255 < v) :
    ∃ e, loadImage image = .error e := by
  cases hload : loadImage image with
  | error e => exact ⟨e, rfl⟩
  | ok s =>
    obtain ⟨hlength, hvalues, -⟩ := loadImage_eq_ok_iff.mp hload
    obtain hlong | ⟨v, hv, hwide⟩ := h
    · exact absurd hlong (Nat.not_lt.mpr hlength)
    · exact absurd hwide (Nat.not_lt.mpr (hvalues v hv))

end Sys2Proof.Machine

namespace Sys2Proof.Proofs

open Sys2Proof.Machine

/-! ### The obligations of memory and the load -/

/-- Settles O26: canonical memories that read alike list the same cells, in the same rising order. -/
theorem canonicalMemoriesThatReadAlikeAreEqual : Obligations.CanonicalMemoriesThatReadAlikeAreEqual := by
  intro m n hm hn hread
  have hcells : ∀ c, c ∈ m ↔ c ∈ n := by
    intro c
    rw [Memory.mem_iff hm, Memory.mem_iff hn]
    exact and_congr_right fun haddr => by rw [hread _ haddr]
  obtain ⟨hm_rising, -⟩ := hm
  obtain ⟨hn_rising, -⟩ := hn
  exact List.Pairwise.eq_of_mem_iff hm_rising hn_rising hcells

/-- Settles O1: each field as reset writes it; the empty memory reads as zero everywhere. -/
theorem resetLeavesTheTabledValues : Obligations.ResetLeavesTheTabledValues := by
  refine ⟨fun _ => rfl, fun r hr => ?_, rfl, rfl, rfl, rfl, rfl⟩
  cases r with
  | r7 => exact absurd rfl hr
  | _ => rfl

/-- Settles O3: the load stores the image's bytes from address 0 up in the empty memory. -/
theorem loadPlacesTheImageFromAddressZero : Obligations.LoadPlacesTheImageFromAddressZero := by
  intro image hlength hvalues
  have hread := fun d => Memory.read_writeBytes 0 d (image.map (BitVec.ofNat 8)) reset_mem_wf
  refine ⟨_, loadImage_eq_ok_iff.mpr ⟨hlength, hvalues, rfl⟩, Memory.writeBytes_wf 0 _ reset_mem_wf,
    fun i v hv => ?placed, fun i hi => ?zero⟩
  case placed =>
    have hi : i < image.length := (List.getElem?_eq_some_iff.mp hv).1
    refine (hread i).trans ?_
    rw [if_pos ⟨Nat.zero_le i, hi.trans_le hlength⟩, Nat.sub_zero, List.getElem?_map, hv]
    rfl
  case zero =>
    have hnone : (image.map (BitVec.ofNat 8))[i]? = none := by rwa [List.getElem?_eq_none_iff, List.length_map]
    refine (hread i).trans ?_
    rw [Nat.sub_zero, hnone]
    exact ite_self _

/-- Settles O4: such an image is none of those accepted, and every refusal of a load is a LoadError. -/
theorem loadRefusesOtherImages : Obligations.LoadRefusesOtherImages := by
  intro image h
  obtain ⟨e, he⟩ := loadImage_refused h
  exact ⟨e, he, by cases e <;> rfl⟩

end Sys2Proof.Proofs

/-! PROOFS. The text of an image, the status interface and the output (spec/30_encoding.md section 6,
spec/60_exceptions.md section 1, spec/42_data_movement.md): O5, O6, O54 and O55. -/

namespace Sys2Proof.Machine

/-! ### Lines of an image text (R106) -/

/-- What stands before the first `#` is kept, the rest is comment. -/
theorem stripComment_append {line : List Char} (h : '#' ∉ line) (comment : List Char) :
    stripComment (line ++ '#' :: comment) = line := by
  have hkeep : ∀ c ∈ line, decide (c ≠ '#') = true := fun c hc => decide_eq_true fun heq => h (heq ▸ hc)
  rw [stripComment, List.takeWhile_append_of_pos hkeep, List.takeWhile_cons_of_neg (by decide), List.append_nil]

theorem stripComment_eq_self {line : List Char} (h : '#' ∉ line) : stripComment line = line :=
  List.takeWhile_eq_self_iff.mpr fun _ hc => decide_eq_true fun heq => h (heq ▸ hc)

theorem trimSpace_of_all_isSpace {line : List Char} (h : line.all isSpace = true) : trimSpace line = [] := by
  have hnil : line.dropWhile isSpace = [] := List.dropWhile_eq_nil_iff.mpr (List.all_eq_true.mp h)
  rw [trimSpace, hnil]
  rfl

/-- What has no white space in it is what remains when the white space after it is trimmed. -/
theorem trimSpace_append_space {line space : List Char} (h : ∀ c ∈ line, isSpace c = false)
    (hspace : space.all isSpace = true) : trimSpace (line ++ space) = line := by
  cases line with
  | nil => exact trimSpace_of_all_isSpace hspace
  | cons c cs =>
    have hfront : (c :: cs ++ space).dropWhile isSpace = c :: cs ++ space :=
      List.dropWhile_cons_of_neg (by simp [h c List.mem_cons_self])
    have hback : (c :: cs).reverse.dropWhile isSpace = (c :: cs).reverse := by
      refine List.dropWhile_eq_self_iff.mpr fun hpos => ?_
      exact Bool.eq_false_iff.mp (h _ (List.mem_reverse.mp (List.getElem_mem hpos)))
    have hskip : ∀ d ∈ space.reverse, isSpace d = true :=
      fun d hd => List.all_eq_true.mp hspace d (List.mem_reverse.mp hd)
    rw [trimSpace, hfront, List.reverse_append, List.dropWhile_append_of_pos hskip, hback, List.reverse_reverse]

theorem hash_notMem_of_all_isSpace {line : List Char} (h : line.all isSpace = true) : '#' ∉ line := fun hmem =>
  absurd (List.all_eq_true.mp h _ hmem) (by decide)

/-- A line of white space yields no value, with or without a comment after it. -/
theorem parseLine_of_blank {line : List Char} (h : trimSpace (stripComment line) = []) : parseLine line = .ok none := by
  rw [parseLine, h]

/-- A line that yields no value can be left out, wherever it stands. -/
theorem parseImage_insert_none {line : List Char} (h : parseLine line = .ok none) (before after : List (List Char)) :
    parseImage (before ++ line :: after) = parseImage (before ++ after) := by
  induction before with
  | nil =>
    rw [List.nil_append, List.nil_append, parseImage, h]
    cases parseImage after <;> rfl
  | cons first before ih => rw [List.cons_append, List.cons_append, parseImage, parseImage, ih]

/-! ### Binary numerals (R106) -/

/-- The character of a binary digit. -/
def bitChar (b : Bool) : Char := if b then '1' else '0'

/-- The lowest `k` binary digits of a byte, most significant first. -/
def binaryDigits (v : Byte) (k : Nat) : List Char := (List.range k).reverse.map fun i => bitChar (v.getLsbD i)

theorem binaryDigits_succ (v : Byte) (k : Nat) : binaryDigits v (k + 1) = bitChar (v.getLsbD k) :: binaryDigits v k := by
  simp [binaryDigits, List.range_succ]

theorem parseBits_bitChar (acc : Nat) (b : Bool) (cs : List Char) :
    parseBits acc (bitChar b :: cs) = parseBits (2 * acc + b.toNat) cs := by
  cases b <;> rfl

/-- The digits below digit `k`, read behind the value of those above, give the whole number. -/
theorem parseBits_binaryDigits (v : Byte) (k : Nat) : parseBits (v.toNat >>> k) (binaryDigits v k) = some v.toNat := by
  induction k with
  | zero => rfl
  | succ k ih =>
    have hbit : 2 * (v.toNat >>> (k + 1)) + (v.getLsbD k).toNat = v.toNat >>> k := by
      rw [BitVec.getLsbD, Nat.toNat_testBit, Nat.shiftRight_succ, ← Nat.shiftRight_eq_div_pow]
      omega
    rw [binaryDigits_succ, parseBits_bitChar, hbit, ih]

theorem bitChar_ne_hash (b : Bool) : bitChar b ≠ '#' := by cases b <;> decide

theorem isSpace_bitChar (b : Bool) : isSpace (bitChar b) = false := by cases b <;> rfl

theorem exists_bitChar_of_mem {v : Byte} {k : Nat} {c : Char} (h : c ∈ binaryDigits v k) : ∃ b, c = bitChar b := by
  obtain ⟨i, -, rfl⟩ := List.mem_map.mp h
  exact ⟨_, rfl⟩

/-! ### Decimal numerals (R162) -/

/-- The character of a decimal digit is one, has the digit as its value, and is `0` only for 0. -/
theorem digitChar_spec {n : Nat} (h : n < 10) :
    (digitChar n).isDigit = true ∧ (digitChar n).toNat - 48 = n ∧ (digitChar n = '0' → n = 0) := by
  revert h; revert n; decide

/-- The decimal digits a numeral is written from: at least one, and no leading 0 but a 0 alone. -/
structure ShortestDigits (n : Nat) (ds : List Nat) : Prop where
  lt_ten : ∀ d ∈ ds, d < 10
  nonempty : 1 ≤ ds.length
  value : ds.foldl (fun m d => 10 * m + d) 0 = n
  leading : ds.head? = some 0 → n = 0 ∧ ds.length = 1

/-- The numeral of a byte, by the number of its digits. -/
theorem decimal_eq_map_digitChar (v : Byte) : ∃ ds, ShortestDigits v.toNat ds ∧ decimal v = ds.map digitChar := by
  have hlt := v.isLt
  simp only [decimal]
  split_ifs with h10 h100
  · exact ⟨[v.toNat], ⟨List.forall_mem_singleton.mpr h10, le_rfl, Nat.zero_add _, fun h => ⟨Option.some.inj h, rfl⟩⟩, rfl⟩
  · refine ⟨[v.toNat / 10, v.toNat % 10], ⟨?_, by simp, ?_, fun h => absurd (Option.some.inj h) (by omega)⟩, rfl⟩
    · simp only [List.forall_mem_cons, List.not_mem_nil, false_imp_iff, implies_true, and_true]
      omega
    · simp only [List.foldl_cons, List.foldl_nil]
      omega
  · refine ⟨[v.toNat / 100, v.toNat / 10 % 10, v.toNat % 10],
      ⟨?_, by simp, ?_, fun h => absurd (Option.some.inj h) (by omega)⟩, rfl⟩
    · simp only [List.forall_mem_cons, List.not_mem_nil, false_imp_iff, implies_true, and_true]
      omega
    · simp only [List.foldl_cons, List.foldl_nil]
      omega

theorem all_isDigit_map_digitChar {ds : List Nat} (h : ∀ d ∈ ds, d < 10) :
    (ds.map digitChar).all Char.isDigit = true := by
  simp only [List.all_map, List.all_eq_true, Function.comp_apply]
  exact fun d hd => (digitChar_spec (h d hd)).1

theorem foldl_map_digitChar {ds : List Nat} (h : ∀ d ∈ ds, d < 10) :
    (ds.map digitChar).foldl (fun m c => 10 * m + (c.toNat - 48)) 0 = ds.foldl (fun m d => 10 * m + d) 0 := by
  rw [List.foldl_map]
  refine List.foldl_ext _ _ 0 fun m d hd => ?_
  obtain ⟨-, hvalue, -⟩ := digitChar_spec (h d hd)
  rw [hvalue]

theorem head?_eq_zero_of_map_digitChar {ds : List Nat} (h : ∀ d ∈ ds, d < 10)
    (hhead : (ds.map digitChar).head? = some '0') : ds.head? = some 0 := by
  cases ds with
  | nil => cases hhead
  | cons d ds =>
    obtain ⟨-, -, hzero⟩ := digitChar_spec (h d List.mem_cons_self)
    exact congrArg some (hzero (Option.some.inj hhead))

end Sys2Proof.Machine

namespace Sys2Proof.Proofs

open Sys2Proof.Machine

/-! ### The obligations of the texts and the status interface -/

/-- Settles O5: such a line is white space once its comment is stripped, so it yields no value. -/
theorem commentAndBlankLinesYieldNoByte : Obligations.CommentAndBlankLinesYieldNoByte := by
  intro before after space comment hspace
  have hhash := hash_notMem_of_all_isSpace hspace
  have hblank := trimSpace_of_all_isSpace hspace
  constructor
  · exact parseImage_insert_none (parseLine_of_blank (by rw [stripComment_append hhash, hblank])) before after
  · exact parseImage_insert_none (parseLine_of_blank (by rw [stripComment_eq_self hhash, hblank])) before after

/-- Settles O6: stripped and trimmed, the line is the eight digits of `v`, which read as its value. -/
theorem binaryLineYieldsItsByte : Obligations.BinaryLineYieldsItsByte := by
  intro v comment
  have hline : ([7, 6, 5, 4, 3, 2, 1, 0].map (fun i => if v.getLsbD i then '1' else '0') ++ ' ' :: '#' :: comment) =
      (binaryDigits v 8 ++ [' ']) ++ '#' :: comment := rfl
  have hhash : '#' ∉ binaryDigits v 8 ++ [' '] := by
    rw [List.mem_append, not_or]
    refine ⟨fun hmem => ?_, by decide⟩
    obtain ⟨b, hb⟩ := exists_bitChar_of_mem hmem
    exact bitChar_ne_hash b hb.symm
  have hspaceless : ∀ c ∈ binaryDigits v 8, isSpace c = false := by
    intro c hc
    obtain ⟨b, rfl⟩ := exists_bitChar_of_mem hc
    exact isSpace_bitChar b
  have hvalue : parseBits 0 (binaryDigits v 8) = some v.toNat := by
    have hzero : v.toNat >>> 8 = 0 := by rw [Nat.shiftRight_eq_div_pow]; exact Nat.div_eq_of_lt v.isLt
    rw [← parseBits_binaryDigits v 8, hzero]
  rw [hline, parseLine, stripComment_append hhash, trimSpace_append_space hspaceless (by decide)]
  rw [binaryDigits_succ] at hvalue ⊢
  simp only [hvalue]

/-- Settles O54: the numbers as the definitions write them. -/
theorem statusCodesAreAsAssigned : Obligations.StatusCodesAreAsAssigned :=
  ⟨rfl, rfl, rfl, rfl, rfl, rfl, rfl, rfl, rfl, rfl, rfl, fun _ => rfl, fun _ _ => ⟨rfl, rfl⟩⟩

/-- Settles O55: the numeral of a byte has one, two or three digits, the first of them not 0 unless it is alone. -/
theorem outputRendersOneNumeralPerLine : Obligations.OutputRendersOneNumeralPerLine := by
  refine ⟨fun out v => by simp [renderOutput], rfl, fun v => ?_⟩
  obtain ⟨ds, ⟨hlt, hne, hvalue, hleading⟩, hdecimal⟩ := decimal_eq_map_digitChar v
  rw [hdecimal, List.length_map]
  refine ⟨hne, all_isDigit_map_digitChar hlt, (foldl_map_digitChar hlt).trans hvalue, fun hhead => ?_⟩
  obtain ⟨hzero, hone⟩ := hleading (head?_eq_zero_of_map_digitChar hlt hhead)
  exact ⟨BitVec.eq_of_toNat_eq hzero, hone⟩

end Sys2Proof.Proofs

/-! PROOFS. The results of the ALU, stack and control instructions: O37, O38, O41, O42, O43, O50, O51, then what they give
in sequence: O44, O45, O52, O21 and O46 (spec/41_alu.md, spec/43_stack.md, spec/44_control_transfer.md,
spec/20_memory.md section 4). -/

namespace Sys2Proof.Machine

/-! ### The stack pointer as a byte (R24) -/

/-- Above 0, the decremented stack pointer is one less as a number. -/
theorem toNat_sub_one {v : Byte} (h : v ≠ 0x00#8) : (v - 1#8).toNat = v.toNat - 1 := by
  have hpos : v.toNat ≠ 0 := fun h0 => h (BitVec.eq_of_toNat_eq h0)
  have hlt := v.isLt
  rw [BitVec.toNat_sub, BitVec.toNat_ofNat]
  omega

theorem ofNat_toNat_sub_one {v : Byte} (h : v ≠ 0x00#8) : BitVec.ofNat 8 (v.toNat - 1) = v - 1#8 := by
  rw [← toNat_sub_one h, BitVec.ofNat_toNat, BitVec.setWidth_eq]

theorem ofNat_toNat_add_one (v : Byte) : BitVec.ofNat 8 (v.toNat + 1) = v + 1#8 := by
  rw [BitVec.ofNat_add, BitVec.ofNat_toNat, BitVec.setWidth_eq]

theorem sub_one_add_one (v : Byte) : v - 1#8 + 1#8 = v := BitVec.sub_add_cancel v 1#8

/-- A decremented stack pointer can be incremented. -/
theorem sub_one_ne_255 {v : Byte} (h : v ≠ 0x00#8) : v - 1#8 ≠ 0xFF#8 := by
  intro heq
  have hlt := v.isLt
  have hdec := toNat_sub_one h
  rw [heq] at hdec
  change 255 = v.toNat - 1 at hdec
  omega

/-- `trunc8` is modulo 256 (R8). -/
theorem trunc8_eq_ofNat_mod (n : Nat) : trunc8 n = BitVec.ofNat 8 (n % 256) :=
  BitVec.eq_of_toNat_eq (by simp [trunc8])

/-! ### Register writes that cancel -/

theorem Regs.set_get_self (x : Regs) (r : Reg) : x.set r (x.get r) = x := by cases r <;> rfl

theorem Regs.set_set (x : Regs) (r : Reg) (v w : Byte) : (x.set r v).set r w = x.set r w := by cases r <;> rfl

/-- A register other than R7 after a write to R7, and R7 itself. -/
theorem Regs.get_set_r7 (x : Regs) (r : Reg) (v : Byte) : (x.set .r7 v).get r = if r = .r7 then v else x.get r :=
  Regs.get_set x r .r7 v

/-! ### Completion of the stack and subroutine instructions (R171, R172, R184, R185) -/

section Completion

variable {s : State}

theorem exec_push_regByte (r : Reg) (h : s.x.r7 ≠ 0x00#8) :
    exec (.push (regByte r)) s = .next ((pushAt s (s.x.r7 - 1#8) (·.x.get r)).advance 2) := by
  rw [exec_of_no_fault (by simp [firstFault, h]), effect, regOf_regByte]

theorem exec_pop_regByte (r : Reg) (h : (popped s r).x.r7 ≠ 0xFF#8) :
    exec (.pop (regByte r)) s = .next (((popped s r).setReg spReg ((popped s r).x.r7 + 1#8)).advance 2) := by
  rw [← regOf_regByte r, ne_eq, popped_r7_eq_iff] at h
  rw [exec_of_no_fault (by simp only [firstFault, if_neg h, indexFault_regByte]; rfl), effect, regOf_regByte]

theorem exec_pop_raises (r : Reg) (h : (popped s r).x.r7 = 0xFF#8) :
    exec (.pop (regByte r)) s = .next (s.raised (.outOfBounds .stackPointer 256)) := by
  rw [← regOf_regByte r, popped_r7_eq_iff] at h
  exact exec_of_firstFault (by simp only [firstFault, if_pos h, indexFault_regByte]; rfl)

/-- POP of a register other than R7 increments R7 as it was. -/
theorem popped_r7_of_ne {r : Reg} (h : r ≠ .r7) : (popped s r).x.r7 = s.x.r7 :=
  Regs.get_set_ne s.x _ h.symm

theorem exec_call_regByte (r : Reg) (h : s.x.r7 ≠ 0x00#8) (hret : s.pc + 2 ≤ 255) :
    exec (.call (regByte r)) s =
      .next ((pushAt s (s.x.r7 - 1#8) fun _ => BitVec.ofNat 8 (s.pc + 2)).jump ((s.x.set .r7 (s.x.r7 - 1#8)).get r)) := by
  rw [exec_of_no_fault (by simp [firstFault, h, Nat.not_lt.mpr hret]), effect, regOf_regByte]
  rfl

theorem exec_ret (h : s.x.r7 ≠ 0xFF#8) :
    exec .ret s = .next ((s.jump (s.mem.read s.x.r7.toNat)).setReg spReg (s.x.r7 + 1#8)) :=
  exec_of_no_fault (if_neg h)

end Completion

/-! ### PUSH and POP of a register other than R7, field by field -/

/-- What PUSH of a register other than R7 leaves: the register's byte in the new top of stack. -/
structure Pushed (s t : State) (r : Reg) : Prop where
  canonical : t.mem.wf
  sp : t.x.r7 = s.x.r7 - 1#8
  top : t.mem.read t.x.r7.toNat = s.x.get r
  below : ∀ d, d ≠ t.x.r7.toNat → t.mem.read d = s.mem.read d
  others : ∀ q, q ≠ .r7 → t.x.get q = s.x.get q

theorem exists_pushed {s : State} {r : Reg} (hwf : s.mem.wf) (hr : r ≠ .r7) (h : s.x.r7 ≠ 0x00#8) :
    ∃ t, exec (.push (regByte r)) s = .next t ∧ Pushed s t r := by
  refine ⟨_, exec_push_regByte r h, Memory.write_wf _ hwf (BitVec.isLt _), rfl, ?_, fun d hd => ?_, fun q hq => ?_⟩
  · exact (Memory.read_write_self _ _ _ hwf).trans (Regs.get_set_ne _ _ hr)
  · exact Memory.read_write_ne _ _ hd
  · exact Regs.get_set_ne _ _ hq

/-- What POP into a register other than R7 leaves: the byte on top of the stack in that register. -/
structure Popped (s t : State) (r : Reg) : Prop where
  mem : t.mem = s.mem
  sp : t.x.r7 = s.x.r7 + 1#8
  top : t.x.get r = s.mem.read s.x.r7.toNat
  others : ∀ q, q ≠ r → q ≠ .r7 → t.x.get q = s.x.get q

theorem exists_popped {s : State} {r : Reg} (hr : r ≠ .r7) (h : s.x.r7 ≠ 0xFF#8) :
    ∃ t, exec (.pop (regByte r)) s = .next t ∧ Popped s t r := by
  have hsp : (popped s r).x.r7 = s.x.r7 := popped_r7_of_ne hr
  refine ⟨_, exec_pop_regByte r (hsp ▸ h), rfl, congrArg (· + 1#8) hsp, ?_, fun q hq hq7 => ?_⟩
  · exact (Regs.get_set_ne _ _ hr).trans (Regs.get_set_self _ _ _)
  · exact (Regs.get_set_ne _ _ hq7).trans (Regs.get_set_ne _ _ hq)

/-- POP writes nothing new when the byte on top of the stack is what the register holds. -/
theorem popped_eq_self {s : State} {r : Reg} (h : s.mem.read s.x.r7.toNat = s.x.get r) : popped s r = s := by
  rw [popped, h, State.setReg, Regs.set_get_self]

/-! ### A stored byte and the fetch (R70) -/

/-- What PUSH or CALL stores at the decremented stack pointer, when it completes. -/
theorem read_stored {s t : State} {sp v : Byte} {i : Instr} (hwf : s.mem.wf) (hsp : spDec s = .ok sp)
    (hrun : t.run = .running) (hexec : exec i s = .next t)
    (hi : (∃ r, i = .push (regByte r) ∧ v = t.x.get r) ∨ (∃ r, i = .call (regByte r) ∧ v = BitVec.ofNat 8 (s.pc + 2))) :
    t.mem.read sp.toNat = v := by
  obtain ⟨-, rfl⟩ := spDec_eq_ok_iff.mp hsp
  obtain ⟨c, -, rfl⟩ | ⟨-, rfl⟩ := exec_inversion hexec
  · cases hrun
  · obtain ⟨r, rfl, rfl⟩ | ⟨r, rfl, rfl⟩ := hi
    · refine (Memory.read_write_self _ _ _ hwf).trans ?_
      rw [regOf_regByte]
      rfl
    · exact Memory.read_write_self _ _ _ hwf

end Sys2Proof.Machine

namespace Sys2Proof.Proofs

open Sys2Proof.Machine

/-! ### The obligations of the ALU (R141, R142, R145) -/

/-- Settles O37: the ALU's sum is reduced by `trunc8`, which is modulo 256. -/
theorem addIsModulo256 : Obligations.AddIsModulo256 := by
  intro s a b
  refine ⟨fun ra rb => ?_, fun ha => aluInstr_of_a_gt ha .add 3 b s, fun ra hb => aluInstr_of_b_gt hb .add 3 ra s⟩
  refine (aluInstr_regByte .add 3 ra rb s).trans ?_
  rw [← trunc8_eq_ofNat_mod]
  rfl

/-- Settles O38: as O37, with the product. -/
theorem mulKeepsTheLowByte : Obligations.MulKeepsTheLowByte := by
  intro s a b
  refine ⟨fun ra rb => ?_, fun ha => aluInstr_of_a_gt ha .mul 3 b s, fun ra hb => aluInstr_of_b_gt hb .mul 3 ra s⟩
  refine (aluInstr_regByte .mul 3 ra rb s).trans ?_
  rw [← trunc8_eq_ofNat_mod]
  rfl

/-- Settles O41: FL is set to CMP's value, one of three by the unsigned compare. -/
theorem cmpSetsExactlyOneFlag : Obligations.CmpSetsExactlyOneFlag := by
  intro s a b
  refine ⟨fun ra rb => ?_, fun ha => aluInstr_of_a_gt ha .cmp 3 b s, fun ra hb => aluInstr_of_b_gt hb .cmp 3 ra s⟩
  have hcmp : exec (.cmp (regByte ra) (regByte rb)) s =
      .next { s with fl := compareFlags (s.x.get ra) (s.x.get rb), pc := s.pc + 3 } := aluInstr_regByte .cmp 3 ra rb s
  rw [hcmp]
  obtain ⟨heq, hfl⟩ | ⟨hgt, hfl⟩ | ⟨hlt, hfl⟩ := compareFlags_cases (s.x.get ra) (s.x.get rb) <;> rw [hfl]
  · rw [heq]
    exact ⟨fun _ => rfl, fun h => absurd h (lt_irrefl _), fun h => absurd h (lt_irrefl _)⟩
  · exact ⟨fun h => absurd h hgt.ne', fun _ => rfl, fun h => absurd h hgt.not_gt⟩
  · exact ⟨fun h => absurd h hlt.ne, fun h => absurd h hlt.not_gt, fun _ => rfl⟩

/-! ### The obligations of the stack (R171 to R173) -/

/-- Settles O42: behind the checks PUSH decrements R7 and stores what the register then holds. -/
theorem pushStoresBelowTheStackPointer : Obligations.PushStoresBelowTheStackPointer := by
  intro s a r
  refine ⟨fun h => ?completes, fun h => ?underflow, fun ha => complete_regIdx_of_gt ha s _⟩
  case completes =>
    intro sp
    have hsp : sp = s.x.r7 - 1#8 := ofNat_toNat_sub_one h
    rw [exec_push_regByte r h, ← hsp, ← Regs.get_set_r7]
    rfl
  case underflow =>
    rw [Regs.get_r7] at h
    exact exec_of_firstFault (by simp [firstFault, h])

/-- Settles O43: POP writes the register, then increments R7 as it stands; for `POP R7` that is the popped byte. -/
theorem popLoadsAtTheStackPointer : Obligations.PopLoadsAtTheStackPointer := by
  intro s a r v
  refine ⟨fun hr h => ?completes, fun h => ?completesR7, fun hr h => ?overflow, fun h => exec_pop_raises .r7 h,
    fun ha => complete_regIdx_of_gt ha s _⟩
  case completes =>
    have hsp : (popped s r).x.r7 = s.x.r7 := popped_r7_of_ne hr
    rw [exec_pop_regByte r (hsp ▸ h), hsp, ← ofNat_toNat_add_one]
    rfl
  case completesR7 =>
    refine (exec_pop_regByte .r7 h).trans ?_
    rw [← ofNat_toNat_add_one]
    rfl
  case overflow => exact exec_pop_raises r ((popped_r7_of_ne hr).trans h)

/-- Settles O44: the pushed byte is what the register then holds, so POP writes it back unchanged, and R7 is decremented
and incremented once. -/
theorem pushThenPopRestoresTheRegisters : Obligations.PushThenPopRestoresTheRegisters := by
  intro s r hwf h
  rw [Regs.get_r7] at h ⊢
  have hslot := toNat_sub_one h
  have hpush := exec_push_regByte r h
  set t := (pushAt s (s.x.r7 - 1#8) (·.x.get r)).advance 2
  have htop : t.mem.read t.x.r7.toNat = t.x.get r := Memory.read_write_self _ _ _ hwf
  have hpopped : popped t r = t := popped_eq_self htop
  have hpop := exec_pop_regByte (s := t) r (by rw [hpopped]; exact sub_one_ne_255 h)
  rw [hpopped] at hpop
  refine ⟨t, _, hpush, hpop, ?registers, ?top, fun d hd => ?below, rfl, rfl, rfl⟩
  case registers =>
    change (s.x.set .r7 (s.x.r7 - 1#8)).set .r7 (s.x.r7 - 1#8 + 1#8) = s.x
    rw [Regs.set_set, sub_one_add_one]
    exact Regs.set_get_self s.x .r7
  case top =>
    rw [← hslot]
    exact htop
  case below =>
    rw [← hslot] at hd
    exact Memory.read_write_ne _ _ hd

/-- Settles O45: each POP reads the slot its PUSH wrote, which the stack operations between them leave alone. -/
theorem pushesAndPopsNest : Obligations.PushesAndPopsNest := by
  intro s a b c d hwf ha hb hc hd hcd h2
  rw [Regs.get_r7] at h2 ⊢
  have h0 : s.x.r7 ≠ 0x00#8 := fun h => by rw [h] at h2; exact absurd h2 (by decide)
  have h1 : s.x.r7 - 1#8 ≠ 0x00#8 := by
    intro h
    have hdec := toNat_sub_one h0
    rw [h] at hdec
    change 0 = s.x.r7.toNat - 1 at hdec
    omega
  obtain ⟨t₁, hexec₁, p₁⟩ := exists_pushed hwf ha h0
  obtain ⟨t₂, hexec₂, p₂⟩ := exists_pushed p₁.canonical hb (p₁.sp ▸ h1)
  obtain ⟨t₃, hexec₃, p₃⟩ := exists_popped hc (p₂.sp ▸ p₁.sp ▸ sub_one_ne_255 h1)
  have hsp₃ : t₃.x.r7 = t₁.x.r7 := by rw [p₃.sp, p₂.sp, sub_one_add_one]
  obtain ⟨t₄, hexec₄, p₄⟩ := exists_popped hd (hsp₃ ▸ p₁.sp ▸ sub_one_ne_255 h0)
  refine ⟨t₁, t₂, t₃, t₄, hexec₁, hexec₂, hexec₃, hexec₄, ?_, ?_, ?_⟩
  · calc t₄.x.get c = t₃.x.get c := p₄.others c hcd hc
      _ = t₂.mem.read t₂.x.r7.toNat := p₃.top
      _ = t₁.x.get b := p₂.top
      _ = s.x.get b := p₁.others b hb
  · have hslots : t₁.x.r7.toNat ≠ t₂.x.r7.toNat := by
      rw [p₂.sp, p₁.sp, toNat_sub_one h1, toNat_sub_one h0]
      omega
    calc t₄.x.get d = t₃.mem.read t₃.x.r7.toNat := p₄.top
      _ = t₂.mem.read t₁.x.r7.toNat := by rw [p₃.mem, hsp₃]
      _ = t₁.mem.read t₁.x.r7.toNat := p₂.below _ hslots
      _ = s.x.get a := p₁.top
  · rw [Regs.get_r7, p₄.sp, hsp₃, p₁.sp, sub_one_add_one]

/-- Settles O46: the byte stands at the address it was stored to, and a window that reaches the address offers it to the
decoder. -/
theorem storedByteIsSeenByTheNextFetch : Obligations.StoredByteIsSeenByTheNextFetch := by
  intro s t sp v i hwf hsp hrun hexec hi
  have hstored := read_stored hwf hsp hrun hexec hi
  refine ⟨hstored, fun u k hu hk haddr => ?_⟩
  have hwindow : (fetchWindow u)[k]? = some v := by
    rw [getElem?_fetchWindow hk (haddr ▸ Nat.le_of_lt_succ sp.isLt), haddr, hu, hstored]
  exact ⟨hwindow, fun j hj hlen => (getElem?_encode_of_fetchInstr hj hlen).trans hwindow⟩

/-! ### The obligations of control transfer (R126, R184 to R186) -/

/-- Settles O50: behind its three checks CALL decrements R7, stores the return address, and jumps to what the register then
holds. -/
theorem callPushesTheReturnAddress : Obligations.CallPushesTheReturnAddress := by
  intro s a r
  refine ⟨fun h hret => ?completes, fun h => ?underflow, fun h hpc => ?noReturn, fun ha => complete_regIdx_of_gt ha s _⟩
  case completes =>
    intro sp
    have hsp : sp = s.x.r7 - 1#8 := ofNat_toNat_sub_one h
    rw [exec_call_regByte r h hret, ← hsp, Regs.get_set_r7]
    rfl
  case underflow =>
    rw [Regs.get_r7] at h
    exact exec_of_firstFault (by simp [firstFault, h])
  case noReturn =>
    rw [Regs.get_r7] at h
    exact exec_of_firstFault (by simp [firstFault, h, hpc])

/-- Settles O51: behind its check RET jumps to the byte at R7 and increments R7. -/
theorem retGoesToThePoppedByte : Obligations.RetGoesToThePoppedByte := by
  intro s
  refine ⟨fun h => ?_, fun h => exec_of_firstFault (if_pos h)⟩
  rw [exec_ret h, ← ofNat_toNat_add_one]
  rfl

/-- Settles O52: RET reads the return address where CALL stored it, and increments R7 from where CALL decremented it. -/
theorem callThenRetReturns : Obligations.CallThenRetReturns := by
  intro s r hwf h hret
  rw [Regs.get_r7] at h ⊢
  refine ⟨_, exec_call_regByte r h hret, fun u hsp hstored => ?_⟩
  have hu7 : u.x.r7 = s.x.r7 - 1#8 := hsp
  have hread : u.mem.read u.x.r7.toNat = BitVec.ofNat 8 (s.pc + 2) := by
    refine hstored.trans ?_
    rw [Regs.get_r7, hu7]
    exact Memory.read_write_self _ _ _ hwf
  refine ⟨_, exec_ret (hu7 ▸ sub_one_ne_255 h), ?returns, ?sp, fun q hq => Regs.get_set_ne _ _ hq, rfl⟩
  case returns =>
    change (u.mem.read u.x.r7.toNat).toNat = s.pc + 2
    rw [hread, BitVec.toNat_ofNat]
    exact Nat.mod_eq_of_lt (Nat.lt_succ_of_le hret)
  case sp =>
    change u.x.r7 + 1#8 = s.x.r7
    rw [hu7, sub_one_add_one]

/-- Settles O21: each of them ends in a jump to a byte. -/
theorem redirectSetsPcToAByte : Obligations.RedirectSetsPcToAByte := by
  intro s r
  have hbyte : ∀ v : Byte, v.toNat ≤ 255 := fun v => Nat.le_of_lt_succ v.isLt
  refine ⟨⟨_, exec_jmp_regByte r s, rfl, rfl, hbyte _⟩, fun h hpc => ⟨_, exec_call_regByte r h (by omega), rfl, rfl, hbyte _⟩,
    fun h => ⟨_, exec_ret h, rfl, rfl, hbyte _⟩, fun hE => ⟨_, branchIf_regByte_of_taken hE _ r s, rfl, rfl, hbyte _⟩,
    fun hclear => ⟨_, branchIf_regByte_of_taken (congrArg not hclear) _ r s, rfl, rfl, hbyte _⟩⟩

end Sys2Proof.Proofs
